-- ==== Sys2Proof/Word.lean ====
section
/-! DEFINITION. The word types of the PrintSpider waveform core (spec/00_scope.md R12, R13; spec/10_state.md R20). -/

namespace Sys2Proof

/-- A nozzle-buffer cell: 8 bits, bit 0 the least significant (R12, R20). -/
abbrev Byte := BitVec 8

/-- A template control word, and an output word: 16 bits (R9, R90, R93). -/
abbrev Word := BitVec 16

/-- A command word as it stands on the producer or the consumer port: 32 bits (R110, R111). -/
abbrev Command := BitVec 32

/-- A nozzle buffer: 42 cells of 8 bits, the layout that `NB`, `QS` and `RB` share (R20, R26, R27, R61). -/
abbrev Row := Vector Byte 42

end Sys2Proof
end

