-- ==== Sys2Proof/Syntax.lean ====
section
/-! DEFINITION. The operation set: one constructor of `Instr` per row of spec/opcode_table.json
(spec/30_encoding.md R118), with the operand types of R98, R100, R101 and R105. -/

namespace Sys2Proof

/-- The cartridge type, a 4-way enumeration (R5, R98). -/
inductive Cartridge where
  | colorA
  | colorB
  | blackA
  | blackB
  deriving DecidableEq, Repr, Inhabited

/-- The two command ports of the core, one for each agent (R111, R266). -/
inductive Port where
  | producer
  | consumer
  deriving DecidableEq, Repr

/-- The nine operations (R118).  `p` is the signed nozzle index (R100), `color` the 2-bit selector whose value 3
is reserved (R101, R121), `row` the 1-bit black row (R101), `t` the cartridge type (R98), `len` the length in
words of the buffer the peripheral asks for (R105). -/
inductive Instr where
  | nbclr
  | setc (p : Int) (color : Fin 4)
  | setb (p : Int) (row : Fin 2)
  | tsel (t : Cartridge)
  | obclr
  | gen
  | emit
  | send
  | fill (len : Nat)
  deriving DecidableEq, Repr

/-- The port on which an operation is accepted: FILL on the consumer port, every other on the producer port
(R118, R120). -/
def Instr.port : Instr → Port
  | .nbclr => .producer
  | .setc _ _ => .producer
  | .setb _ _ => .producer
  | .tsel _ => .producer
  | .obclr => .producer
  | .gen => .producer
  | .emit => .producer
  | .send => .producer
  | .fill _ => .consumer

/-- The operation's name in the opcode table (R118). -/
def Instr.mnemonic : Instr → String
  | .nbclr => "NBCLR"
  | .setc _ _ => "SETC"
  | .setb _ _ => "SETB"
  | .tsel _ => "TSEL"
  | .obclr => "OBCLR"
  | .gen => "GEN"
  | .emit => "EMIT"
  | .send => "SEND"
  | .fill _ => "FILL"

end Sys2Proof
end

