-- ==== Sys2Proof/Config.lean ====
section
/-! DEFINITION. The configuration (spec/00_scope.md R10, R11; spec/10_state.md R41): what one chip is built with,
and the opaque constants that stand for every value the spec leaves open.  No constant here has a body, so no
proof can learn a value of it.  A `Config` is a field of State that no operation writes, so that a statement about
every state is a statement about every configuration R10 allows. -/

namespace Sys2Proof

/-- R10's constraint on the sizes: `14*(TL[t]+8) <= OB_CAP` for each of the four templates, and
`OB_CAP <= 65535`.  (`112 <= OB_CAP` follows.) -/
def sizesLegal (colorA colorB blackA blackB : List Word) (obCap : Nat) : Bool :=
  decide (14 * (colorA.length + 8) ≤ obCap) && decide (14 * (colorB.length + 8) ≤ obCap) &&
    decide (14 * (blackA.length + 8) ≤ obCap) && decide (14 * (blackB.length + 8) ≤ obCap) &&
    decide (obCap ≤ 65535)

/-- The parameters of R10: the contents `TPL[t]` of the template memory `TPLROM` (R31; any words, any lengths the
constraint allows, R163) and the capacity `OB_CAP` of the output buffer in words.  The constraint of R10 and R174
is carried with the data, so that a configuration that breaks it cannot be written (notes/assumptions/2.md). -/
structure Config where
  colorA : List Word
  colorB : List Word
  blackA : List Word
  blackB : List Word
  obCap : Nat
  legal : sizesLegal colorA colorB blackA blackB obCap = true
  deriving DecidableEq, Repr

/-- `TPLROM[t]`: "a pure lookup by cartridge type" (R31, R160, R161). -/
def Config.template (c : Config) : Cartridge → List Word
  | .colorA => c.colorA
  | .colorB => c.colorB
  | .blackA => c.blackA
  | .blackB => c.blackB

/-- `L(n) = 14*(n+8)`, the length of the waveform of a template of `n` words (R186). -/
def waveLength (n : Nat) : Nat := 14 * (n + 8)

/-! ### Free values (opaque, without a body; notes/assumptions/1.md, 3.md, 4.md, 5.md) -/

/-- The authored contents of the four templates, which no source holds (R163, spec/91_not_in_source.md N1).
DESIGN CHOICE (notes/assumptions/1.md). -/
opaque Config.authored : Cartridge → List Word

/-- How many cells the output buffer has beyond those the longest template needs (R10, spec/92_eei_decisions.md
D13).  DESIGN CHOICE (notes/assumptions/1.md). -/
opaque Config.spareCells : Nat

/-- What cell `a` of `NB` holds at reset (R45: unspecified).  DESIGN CHOICE (notes/assumptions/3.md). -/
opaque Config.resetNb : Nat → Byte

/-- What cell `a` of `QS` holds at reset (R45: unspecified).  DESIGN CHOICE (notes/assumptions/3.md). -/
opaque Config.resetQs : Nat → Byte

/-- What cell `a` of `RB` holds at reset (R45: unspecified).  DESIGN CHOICE (notes/assumptions/3.md). -/
opaque Config.resetRb : Nat → Byte

/-- What `TSEL` holds at reset: "some one of 0..3, which one is not defined" (R45).
DESIGN CHOICE (notes/assumptions/3.md). -/
opaque Config.resetTsel : Cartridge

/-- The `k`-th byte drawn for the contents of `NB` after a SEND (R213: unspecified).
DESIGN CHOICE (notes/assumptions/4.md). -/
opaque Config.staleByte : Nat → Byte

/-- The word the bus driver is handed for a cell `n` of `OB` that nothing has written (R45: unspecified;
spec/93_implementation_defined.md U5: "any value" on the bus).  DESIGN CHOICE (notes/assumptions/5.md). -/
opaque Config.powerOnWord : Nat → Word

/-! ### The chip the reset state is built with -/

/-- The authored template cut to 4673 words, the longest that spec/92_eei_decisions.md D26 allows, so that every
template length R10 admits, and no other, is a value of it. -/
def Config.chipTemplate (t : Cartridge) : List Word := (Config.authored t).take 4673

/-- The length of the longest of the chip's four templates. -/
def Config.chipLongest : Nat :=
  max (max (Config.chipTemplate .colorA).length (Config.chipTemplate .colorB).length)
    (max (Config.chipTemplate .blackA).length (Config.chipTemplate .blackB).length)

/-- The chip's `OB_CAP`: room for the longest template and `spareCells` more, at most 65535 (R10). -/
def Config.chipCap : Nat := min (14 * Config.chipLongest + Config.spareCells) 65423 + 112

theorem Config.chipTemplate_length_le (t : Cartridge) : (Config.chipTemplate t).length ≤ 4673 := by
  simp [Config.chipTemplate]

theorem Config.chipTemplate_length_le_longest (t : Cartridge) :
    (Config.chipTemplate t).length ≤ Config.chipLongest := by
  cases t <;> simp [Config.chipLongest]

theorem Config.chipTemplate_fits (t : Cartridge) :
    14 * ((Config.chipTemplate t).length + 8) ≤ Config.chipCap := by
  have h1 := Config.chipTemplate_length_le t
  have h2 := Config.chipTemplate_length_le_longest t
  unfold Config.chipCap
  omega

theorem Config.chip_legal :
    sizesLegal (Config.chipTemplate .colorA) (Config.chipTemplate .colorB) (Config.chipTemplate .blackA)
      (Config.chipTemplate .blackB) Config.chipCap = true := by
  have hc : Config.chipCap ≤ 65535 := by unfold Config.chipCap; omega
  simp [sizesLegal, Config.chipTemplate_fits, hc]

/-- The configuration of the machine as it comes out of reset: every legal configuration is a value of it, and no
proof can tell which it is (R163: "must not assume any property of a real template"). -/
def Config.chip : Config where
  colorA := Config.chipTemplate .colorA
  colorB := Config.chipTemplate .colorB
  blackA := Config.chipTemplate .blackA
  blackB := Config.chipTemplate .blackB
  obCap := Config.chipCap
  legal := Config.chip_legal

end Sys2Proof
end

