-- ==== Sys2Proof/WellFormed.lean ====
section
/-! DEFINITION. Which operations a command word can carry: the operand ranges of spec/30_encoding.md R100 and R105.
(The ranges of `color`, `row` and `t` are in their types: R98, R101.) -/

namespace Sys2Proof

/-- The nozzle index fits the signed 16-bit field `IMM` (R100: range -32768..32767). -/
def indexFits (p : Int) : Bool := decide (-32768 ≤ p) && decide (p ≤ 32767)

/-- The length fits the unsigned 16-bit field `IMM` (R105: range 0..65535). -/
def lengthFits (len : Nat) : Bool := decide (len ≤ 65535)

/-- An operation whose operands fit their fields (R110). -/
def Instr.wellFormed : Instr → Bool
  | .nbclr => true
  | .setc p _ => indexFits p
  | .setb p _ => indexFits p
  | .tsel _ => true
  | .obclr => true
  | .gen => true
  | .emit => true
  | .send => true
  | .fill len => lengthFits len

end Sys2Proof
end

