-- ==== Sys2Proof/Decode.lean ====
section
/-! DEFINITION. The command word (spec/30_encoding.md R110, R119, R120): the decoder, total on every 32-bit word and
rejecting by name, and after it the encoder, written from the same tables. -/

namespace Sys2Proof

/-- The field `v[hi:lo]` of a command word, read as an unsigned number (R12). -/
def field (w : Command) (hi lo : Nat) : Nat := w.toNat / 2 ^ lo % 2 ^ (hi + 1 - lo)

/-- `OPC`, bits 31:28 (R110). -/
def fieldOpc (w : Command) : Nat := field w 31 28
/-- `Z`, bits 27:18, which must be zero (R110). -/
def fieldZ (w : Command) : Nat := field w 27 18
/-- `SELF`, bits 17:16, the selector operand (R110). -/
def fieldSelf (w : Command) : Nat := field w 17 16
/-- `IMM`, bits 15:0 (R110). -/
def fieldImm (w : Command) : Nat := field w 15 0

/-- A 16-bit field read as a two's-complement integer (R13, R100). -/
def signed16 (n : Nat) : Int := if n < 32768 then (n : Int) else (n : Int) - 65536

/-- The cartridge type of a 2-bit code: 0 ColorA, 1 ColorB, 2 BlackA, 3 BlackB (R98). -/
def Cartridge.ofCode (n : Nat) : Cartridge :=
  match n with
  | 0 => .colorA
  | 1 => .colorB
  | 2 => .blackA
  | _ => .blackB

/-- Why a word is illegal (R120). -/
inductive DecodeError where
  /-- `OPC` is 0x0 or 0xA..0xF. -/
  | unknownOpcode
  /-- Bits 27:18 are not zero. -/
  | nonzeroZ
  /-- A `SELF` that must be zero is not. -/
  | nonzeroSelf
  /-- An `IMM` that must be zero is not. -/
  | nonzeroImm
  /-- SETB with bit 17 set. -/
  | rowBit17
  deriving DecidableEq, Repr

/-- The six operations without operands ask that `SELF` and `IMM` be zero (R110). -/
def bare (w : Command) (i : Instr) : Except DecodeError Instr :=
  if fieldSelf w ≠ 0 then .error .nonzeroSelf
  else if fieldImm w ≠ 0 then .error .nonzeroImm
  else .ok i

/-- The operation of a command word whose bits 27:18 are zero (R110, R118, R119). -/
def decodeFields (w : Command) : Except DecodeError Instr :=
  match fieldOpc w with
  | 1 => bare w .nbclr
  | 2 => .ok (.setc (signed16 (fieldImm w)) (Fin.ofNat 4 (fieldSelf w)))
  | 3 => if fieldSelf w < 2 then .ok (.setb (signed16 (fieldImm w)) (Fin.ofNat 2 (fieldSelf w))) else .error .rowBit17
  | 4 => if fieldImm w ≠ 0 then .error .nonzeroImm else .ok (.tsel (Cartridge.ofCode (fieldSelf w)))
  | 5 => bare w .obclr
  | 6 => bare w .gen
  | 7 => bare w .emit
  | 8 => bare w .send
  | 9 => if fieldSelf w ≠ 0 then .error .nonzeroSelf else .ok (.fill (fieldImm w))
  | _ => .error .unknownOpcode

/-- The decoder: every word is an operation or is illegal for a named reason (R119, R120). -/
def decode (w : Command) : Except DecodeError Instr :=
  if fieldZ w ≠ 0 then .error .nonzeroZ else decodeFields w

/-- The instruction the decoder reads from a word numbered as spec/opcode_table.json numbers it.  There is one length,
32 bits (R110); a word with a bit above bit 31 is none. -/
def decodeTableWord (nbits w : Nat) : Option Instr :=
  if nbits ≤ 32 ∧ w < 2 ^ 32 then (decode (BitVec.ofNat 32 w)).toOption else none

/-! ### The encoder -/

/-- The operation code (R118). -/
def Instr.opcode : Instr → Nat
  | .nbclr => 1
  | .setc _ _ => 2
  | .setb _ _ => 3
  | .tsel _ => 4
  | .obclr => 5
  | .gen => 6
  | .emit => 7
  | .send => 8
  | .fill _ => 9

/-- The 2-bit code of a cartridge type (R98). -/
def Cartridge.code : Cartridge → Nat
  | .colorA => 0
  | .colorB => 1
  | .blackA => 2
  | .blackB => 3

/-- `p AND 0xFFFF`: the two's-complement field of a signed index (R131, R140). -/
def imm16 (p : Int) : Nat := (p % 65536).toNat

/-- The selector operand `SELF` (R110). -/
def Instr.selfField : Instr → Nat
  | .nbclr => 0
  | .setc _ color => color.val
  | .setb _ row => row.val
  | .tsel t => t.code
  | .obclr => 0
  | .gen => 0
  | .emit => 0
  | .send => 0
  | .fill _ => 0

/-- The operand `IMM` (R110). -/
def Instr.immField : Instr → Nat
  | .nbclr => 0
  | .setc p _ => imm16 p
  | .setb p _ => imm16 p
  | .tsel _ => 0
  | .obclr => 0
  | .gen => 0
  | .emit => 0
  | .send => 0
  | .fill len => len

/-- The command word of an operation: `OPC` in bits 31:28, `SELF` in 17:16, `IMM` in 15:0 (R110, R131, R140, R160, R230). -/
def encode (i : Instr) : Command := BitVec.ofNat 32 (i.opcode * 2 ^ 28 + i.selfField * 2 ^ 16 + i.immField)

/-! ### The exact patterns of R119 -/

/-- One row of R119: a word `w` selects the operation when `w AND mask = value`. -/
structure Pattern where
  mnemonic : String
  value : Command
  mask : Command
  deriving DecidableEq, Repr

/-- The table of R119, row for row. -/
def patterns : List Pattern :=
  [ ⟨"NBCLR", 0x10000000#32, 0xFFFFFFFF#32⟩,
    ⟨"SETC", 0x20000000#32, 0xFFFC0000#32⟩,
    ⟨"SETB", 0x30000000#32, 0xFFFE0000#32⟩,
    ⟨"TSEL", 0x40000000#32, 0xFFFCFFFF#32⟩,
    ⟨"OBCLR", 0x50000000#32, 0xFFFFFFFF#32⟩,
    ⟨"GEN", 0x60000000#32, 0xFFFFFFFF#32⟩,
    ⟨"EMIT", 0x70000000#32, 0xFFFFFFFF#32⟩,
    ⟨"SEND", 0x80000000#32, 0xFFFFFFFF#32⟩,
    ⟨"FILL", 0x90000000#32, 0xFFFF0000#32⟩ ]

end Sys2Proof
end

