-- ==== Sys2Proof/Machine/State.lean ====
section
/-! DEFINITION. The state of the core, plain data, and the machine right after reset
(spec/10_state.md R20 to R45, spec/20_memory.md R60). -/

namespace Sys2Proof.Machine

/-- The output buffer memory: (index, word) pairs, indices strictly rising.  A cell that is not listed holds no value
(R30, R45; notes/assumptions/5.md). -/
abbrev Memory := List (Nat × Word)

/-- The canonical form: indices strictly rising, so that equal memories are equal lists. -/
def Memory.wf : Memory → Bool
  | [] => true
  | [_] => true
  | a :: b :: rest => decide (a.1 < b.1) && Memory.wf (b :: rest)

/-- The drainer's two states (R38). -/
inductive Drainer where
  | idle
  | filling
  deriving DecidableEq, Repr

/-- What leaves the core: one word on the word-out port (R111, R240), or a filled buffer handed to the output
peripheral with `fill_done` (R111, R230, R236). -/
inductive Event where
  | writeWord (w : Word)
  | fillDone (buffer : List Word)
  deriving DecidableEq, Repr

/-- The machine stops.  Safe: the spec gives no behaviour there (spec/20_memory.md R77). -/
inductive Fault where
  /-- Raised by EMIT when `WLEN` is above `OB_CAP`, so that it would read a cell that does not exist (R77).  No state a
  run reaches is one (notes/assumptions/12.md).  Safe. -/
  | obCellAbsent
  deriving DecidableEq, Repr

/-- The instruction has no meaning.  Safe: the spec refuses too. -/
inductive Refusal where
  /-- Raised by an arm of `exec` whose instruction has no meaning yet.  Safe. -/
  | notModelled (mnemonic : String)
  /-- Raised by FILL with `len` above `OB_CAP` (R233, spec/93_implementation_defined.md S13).  Safe. -/
  | lenOverCapacity
  /-- Raised by FILL when a row is pending and its waveform is longer than `len` (R233, U1, S13).  Safe. -/
  | lenTooSmall
  /-- Raised by FILL while another FILL is in progress (spec/60_exceptions.md R258, S12).  FILL is one step, so no state
  a run reaches is one (notes/assumptions/11.md).  Safe. -/
  | fillOverrun
  deriving DecidableEq, Repr

/-- The state of the core and of its ports. -/
structure State where
  /-- `TPLROM` and `OB_CAP`: no operation writes them (R10, R31, R41). -/
  cfg : Config
  /-- `NB`, the producer's nozzle buffer (R20). -/
  nb : Row
  /-- Whether `NB` holds a value the spec defines (R24). -/
  nbHeld : Bool
  /-- `QF`, the occupancy of the firing queue (R25). -/
  qf : Bool
  /-- `QS`, the queue slot (R26). -/
  qs : Row
  /-- `RB`, the consumer's received row (R27). -/
  rb : Row
  /-- `TSEL`, the selected cartridge type (R28). -/
  tsel : Cartridge
  /-- Whether `TSEL` has been written since reset (R45). -/
  tselHeld : Bool
  /-- `WLEN`, the length the most recent GEN returned (R33). -/
  wlen : Word
  /-- `OB`, the output buffer memory (R30). -/
  ob : Memory
  /-- The drainer's state (R38). -/
  drainer : Drainer
  /-- What has left the core, oldest first (R236, R241; notes/assumptions/13.md). -/
  events : List Event
  /-- The command words presented on the producer port, the one presented now first (R111). -/
  cmds : List Command
  /-- The fill requests presented on the consumer port, the oldest first (R111, R255). -/
  reqs : List Command
  /-- Which port is served next, and next after that (R41, R260; notes/assumptions/9.md). -/
  sched : List Port
  /-- The model's own field: how many free bytes SENDs have drawn (notes/assumptions/4.md). -/
  draws : Nat
  deriving DecidableEq, Repr

/-- A row whose cell `a` is `f a`. -/
def rowOf (f : Nat → Byte) : Row := Vector.ofFn fun a => f a.val

/-- The machine right after reset (R45, spec/70_reset_and_hazards.md R280): `QF = 0`, `WLEN = 0`, drainer IDLE, `OB` and
the selector and row registers unspecified; nothing presented on a port and nothing scheduled. -/
def State.reset : State where
  cfg := Config.chip
  nb := rowOf Config.resetNb
  nbHeld := false
  qf := false
  qs := rowOf Config.resetQs
  rb := rowOf Config.resetRb
  tsel := Config.resetTsel
  tselHeld := false
  wlen := 0#16
  ob := []
  drainer := .idle
  events := []
  cmds := []
  reqs := []
  sched := []
  draws := 0

end Sys2Proof.Machine
end

