-- ==== Sys2Proof/Machine/Ops.lean ====
section
/-! DEFINITION. The operations over the memories, the registers, the queue and the ports that the meanings share
(spec/20_memory.md R68, R77; spec/43_queue.md R212, R216; spec/60_exceptions.md R257). -/

namespace Sys2Proof.Machine

/-! ### Nozzle buffers (R15, R20, R61) -/

/-- Cell `a` of a nozzle buffer, `a` in 0..41 (R20). -/
def cell (d : Row) (a : Nat) : Byte := d.getD a 0#8

/-- `d[a] <- d[a] OR mask`: one read-modify-write of one cell (R67, R134, R146). -/
def orCell (d : Row) (a : Nat) (mask : Byte) : Row := d.setIfInBounds a (cell d a ||| mask)

/-- The all-zero nozzle buffer (R130). -/
def zeroRow : Row := Vector.replicate 42 0#8

/-- Cell `j` of the line `d1`: group 0 (R61, R172). -/
def line1 (d : Row) (j : Nat) : Byte := cell d j
/-- Cell `j` of the line `d2`: group 1 (R61, R172). -/
def line2 (d : Row) (j : Nat) : Byte := cell d (14 + j)
/-- Cell `j` of the line `d3`: group 2 (R61, R172). -/
def line3 (d : Row) (j : Nat) : Byte := cell d (28 + j)

/-! ### The output buffer memory (R30, R77) -/

/-- `MemRead(OB, n)`: the word of cell `n`, or none where the cell holds no value. -/
def Memory.read : Memory → Nat → Option Word
  | [], _ => none
  | c :: rest, n => if c.1 = n then some c.2 else Memory.read rest n

/-- `MemWrite(OB, n, v)`, keeping the canonical form. -/
def Memory.write : Memory → Nat → Word → Memory
  | [], n, v => [(n, v)]
  | c :: rest, n, v =>
    if n < c.1 then (n, v) :: c :: rest
    else if n = c.1 then (n, v) :: rest
    else c :: Memory.write rest n v

/-- `for n in 0..len-1: MemWrite(OB, n, 0x0000)` (R171, R232): the cells below `len` hold zero, the others what they
held.  (Sys2Proof/Laws/Memory.lean proves it equal to the loop.) -/
def Memory.zeroBelow (m : Memory) (len : Nat) : Memory :=
  (List.range len).map (fun n => (n, 0#16)) ++ m.filter (fun c => decide (len ≤ c.1))

/-- The word the bus driver is handed for cell `n`: the cell's value, and for a cell that holds none a free value
(R184, R240; spec/93_implementation_defined.md U5; notes/assumptions/5.md). -/
def busWord (s : State) (n : Nat) : Word := (s.ob.read n).getD (Config.powerOnWord n)

/-- The words of the cells `0..len-1`, in ascending order (R64, R236, R240). -/
def busWords (s : State) (len : Nat) : List Word := (List.range len).map (busWord s)

/-- Perform `writeWord` on each of the cells `0..len-1` in turn (R240). -/
def pushWords (len : Nat) (s : State) : State := { s with events := s.events ++ (busWords s len).map .writeWord }

/-! ### The configuration in use -/

/-- The template that `TSEL` selects, `TPLROM[TSEL]` (R28, R160). -/
def selectedTemplate (s : State) : List Word := s.cfg.template s.tsel

/-! ### The firing queue (R210 to R217) -/

/-- The unspecified contents of `NB` after the SEND before which `k` free bytes were drawn (R213).  (Irreducible so that
comparing two states never writes the 42 free bytes out; `cell_staleRow` in Sys2Proof/Laws/Row.lean says what it is.) -/
@[irreducible] def staleRow (k : Nat) : Row := rowOf fun a => Config.staleByte (k + a)

/-- SEND's hand-off: the slot takes the row, the flag is set, and `NB` holds no value from then on, all as one action
(R68, R212, R213). -/
def handOff (s : State) : State :=
  { s with qs := s.nb, qf := true, nb := staleRow s.draws, nbHeld := false, draws := s.draws + 42 }

/-- TRYRECV: the consumer's non-blocking take, with the row it took if there was one (R216). -/
def tryRecv (s : State) : Option Row × State :=
  if s.qf then (some s.qs, { s with rb := s.qs, qf := false }) else (none, s)

/-! ### Entry and exit of a fill (R257): the nearest thing the core has to an exception entry and return -/

/-- On a request the drainer goes IDLE to FILLING.  Nothing is saved (R256, R257). -/
def fillEntry (s : State) : State := { s with drainer := .filling }

/-- `fill_done`: the buffer `OB[0..len-1]` is handed to the peripheral and the drainer goes back to IDLE.  Nothing is
restored, because nothing was saved (R230, R236, R257). -/
def fillExit (len : Nat) (s : State) : State :=
  { s with drainer := .idle, events := s.events ++ [.fillDone (busWords s len)] }

/-! ### The status port (R33, R111) -/

/-- What software reads on the status port. -/
structure Status where
  qf : Bool
  wlen : Word
  tsel : Cartridge
  deriving DecidableEq, Repr

/-- The status port reads `QF`, `WLEN` and `TSEL`, with no side effect (R69, R111). -/
def statusPort (s : State) : Status := ⟨s.qf, s.wlen, s.tsel⟩

end Sys2Proof.Machine
end

