-- ==== Sys2Proof/Machine/Operands.lean ====
section
/-! DEFINITION. Operand assembly: the addresser's lookup ROMs and the coordinates made from them
(spec/30_encoding.md R102, R103; spec/40_addresser.md R133, R143, R144), and the fields of a template word
(spec/30_encoding.md R90). -/

namespace Sys2Proof.Machine

/-- `ColorByteOrder`, one row per colour, indexed by `p mod 14` (R133). -/
def colorByteOrderTable : List (List Nat) :=
  [ [8, 13, 4, 9, 0, 5, 10, 1, 6, 11, 2, 7, 12, 3],
    [11, 2, 7, 12, 3, 8, 13, 4, 9, 0, 5, 10, 1, 6],
    [0, 5, 10, 1, 6, 11, 2, 7, 12, 3, 8, 13, 4, 9] ]

/-- `ColorByteOrder[color][n]` for `color` in 0..2 and `n` in 0..13 (R133). -/
def colorByteOrder (color n : Nat) : Nat := (colorByteOrderTable.getD color []).getD n 0

/-- `BlackByteOrder`, one row per `order`, indexed by `k` (R143). -/
def blackByteOrderTable : List (List Nat) :=
  [ [4, 12, 10, 2, 8, 0, 6, 13, 7, 1, 9, 3, 11, 5],
    [13, 7, 1, 9, 3, 11, 5, 4, 12, 10, 2, 8, 0, 6] ]

/-- `BlackByteOrder[order][k]` for `order` in 0..1 and `k` in 0..13 (R143). -/
def blackByteOrder (order k : Nat) : Nat := (blackByteOrderTable.getD order []).getD k 0

/-- An entry of `NozzleInfo`: the group `c`, the bit of the cell, the row of `BlackByteOrder` (R97). -/
structure NozzleEntry where
  c : Nat
  bit : Nat
  order : Nat
  deriving DecidableEq, Repr

/-- `NozzleInfo`, 24 entries (R144). -/
def nozzleInfoTable : List NozzleEntry :=
  [⟨2, 0, 1⟩, ⟨2, 1, 1⟩, ⟨1, 0, 1⟩, ⟨1, 1, 1⟩, ⟨0, 0, 1⟩, ⟨0, 1, 1⟩] ++
  [⟨2, 4, 1⟩, ⟨2, 5, 1⟩, ⟨1, 4, 1⟩, ⟨1, 5, 1⟩, ⟨0, 4, 1⟩, ⟨0, 5, 1⟩] ++
  [⟨2, 2, 0⟩, ⟨2, 3, 0⟩, ⟨1, 2, 0⟩, ⟨1, 3, 0⟩, ⟨0, 2, 0⟩, ⟨0, 3, 0⟩] ++
  [⟨2, 6, 0⟩, ⟨2, 7, 0⟩, ⟨1, 6, 0⟩, ⟨1, 7, 0⟩, ⟨0, 6, 0⟩, ⟨0, 7, 0⟩]

/-- `NozzleInfo[jn]` for `jn` in 0..23 (R144). -/
def nozzleInfo (jn : Nat) : NozzleEntry := nozzleInfoTable.getD jn ⟨0, 0, 0⟩

/-- One place of a nozzle buffer: `byteIndex` and `bitIndex` (R96). -/
structure Coord where
  byteIndex : Nat
  bitIndex : Nat
  deriving DecidableEq, Repr

/-- The cell mask of a coordinate, `trunc_8(1 << bitIndex)` (R102, R103, R131). -/
def Coord.mask (c : Coord) : Byte := BitVec.ofNat 8 (2 ^ c.bitIndex)

/-- The colour coordinate of nozzle `p` in 0..112 of colour `color` in 0..2 (R102, R131). -/
def colorCoord (p color : Nat) : Coord := ⟨colorByteOrder color (p % 14) + 14 * color, p / 14⟩

/-- The black coordinate of the translated index `q` in 0..335 (R103, R140, R142). -/
def blackCoordOf (q : Nat) : Coord :=
  let e := nozzleInfo (q / 14)
  ⟨14 * e.c + blackByteOrder e.order (13 - q % 14), e.bit⟩

/-- The black coordinate of nozzle `p` in 0..167 of row `row` in 0..1: "If row==1, translate p += 168" (R103, R140). -/
def blackCoord (p row : Nat) : Coord := blackCoordOf (p + 168 * row)

/-- `NB[byteIndex] <- NB[byteIndex] OR mask`, the write of SETC and SETB (R134, R146). -/
def setNozzle (c : Coord) (s : State) : State := { s with nb := orCell s.nb c.byteIndex c.mask }

/-! ### Fields of a template word (R90) -/

/-- `TOG`, bits 1:0, the toggle pair compared as a 2-bit value (R90, R91). -/
def togField (w : Word) : BitVec 2 := w.extractLsb' 0 2

/-- Bit `n` of a template word: the sync-select bits are 14 (`SYNC_LAST`) and 15 (`SYNC_NORMAL`) (R90, R182). -/
def syncSelect (w : Word) (n : Nat) : Bool := w.getLsbD n

end Sys2Proof.Machine
end

