-- ==== Sys2Proof/Machine/Flags.lean ====
section
/-! DEFINITION. The conditions that steer behaviour.  The core has no condition-code register: `QF` is a field of State,
and the conditions below are computed where they are used and never stored (spec/10_state.md R40). -/

namespace Sys2Proof.Machine

/-- SETC proceeds: `color` is 0, 1 or 2 and `0 <= p <= 112`, the historical bound (R132). -/
def colorInRange (p : Int) (color : Nat) : Bool := decide (color ≤ 2) && decide (0 ≤ p) && decide (p ≤ 112)

/-- SETB proceeds: `0 <= p <= 167`, tested before the translation (R141). -/
def blackInRange (p : Int) : Bool := decide (0 ≤ p) && decide (p ≤ 167)

/-- `empty`: all 42 bytes of the row are zero (R176). -/
def rowEmpty (d : Row) : Bool := d.toList.all (fun b => b == 0#8)

/-- `power` of stage `j`: `d1[j] | d2[j] | d3[j]` (R177). -/
def power (d : Row) (j : Nat) : Byte := line1 d j ||| line2 d j ||| line3 d j

/-- `power[3:0] = 0`: F3 is suppressed in the stage (R177). -/
def suppressF3 (d : Row) (j : Nat) : Bool := power d j &&& 0x0F#8 == 0#8

/-- `power[7:4] = 0`: F5 is suppressed in the stage (R177). -/
def suppressF5 (d : Row) (j : Nat) : Bool := power d j &&& 0xF0#8 == 0#8

/-- `dataEnabled`: the toggle bits are not both zero (R191). -/
def dataEnabled (w : Word) : Bool := togField w != 0#2

/-- The toggle bits differ from the toggle state carried from the previous word (R178). -/
def toggled (lastTog tog : BitVec 2) : Bool := tog != lastTog

/-- A line is asserted when the bit `sel` selects is absent from its cell (R179, R181).  `sel` is a natural number that
doubles without limit, so a selector of 256 or more selects no bit. -/
def lineAsserted (c : Byte) (sel : Nat) : Bool := c.toNat &&& sel == 0

/-- The waveform of a template of `n` words fits a buffer of `len` words (R174, R233). -/
def waveFits (n len : Nat) : Bool := decide (waveLength n ≤ len)

end Sys2Proof.Machine
end

