-- ==== Sys2Proof/Machine/Addresser.lean ====
section
/-! DEFINITION. The nozzle addresser: NBCLR, SETC, SETB (spec/40_addresser.md). -/

namespace Sys2Proof.Machine

/-- NBCLR: every cell of `NB` to zero, after which `NB` holds a value (R130). -/
def execNbclr (s : State) : Host.Outcome State Fault Refusal :=
  .next { s with nb := zeroRow, nbHeld := true }

/-- SETC p, color (R131 to R135).  On an `NB` that holds no value "the hardware ORs into whatever the cell holds" (R131),
and so does the model (notes/assumptions/6.md). -/
def execSetc (p : Int) (color : Fin 4) (s : State) : Host.Outcome State Fault Refusal :=
  if colorInRange p color.val then .next (setNozzle (colorCoord p.toNat color.val) s) else .next s

/-- SETB p, row (R140 to R147), with the same remark on an `NB` that holds no value. -/
def execSetb (p : Int) (row : Fin 2) (s : State) : Host.Outcome State Fault Refusal :=
  if blackInRange p then .next (setNozzle (blackCoord p.toNat row.val) s) else .next s

end Sys2Proof.Machine
end

