-- ==== Sys2Proof/Machine/Encoder.lean ====
section
/-! DEFINITION. The waveform encoder: the action ENC, and the operations OBCLR and GEN (spec/42_encoder.md). -/

namespace Sys2Proof.Machine

/-! ### The parts of ENC (R175) -/

/-- `keep` of stage `j`: bits 15:4, less F3 and F5 where the stage suppresses them (R177, R180). -/
def keepMask (d : Row) (j : Nat) : Word :=
  0xFFF0#16 &&& (if suppressF3 d j then ~~~0x0400#16 else 0xFFFF#16) &&&
    (if suppressF5 d j then ~~~0x0800#16 else 0xFFFF#16)

/-- `syncbit` of stage `j`: the "last" sync-select bit in stage 13, the "normal" one in the others (R182). -/
def syncBit (j : Nat) : Nat := if j = 13 then 14 else 15

/-- The selector after a word: unchanged without a transition, else 1 the first time and doubled after (R178). -/
def nextSel (sel : Nat) (lastTog tog : BitVec 2) : Nat :=
  if toggled lastTog tog then (if sel = 0 then 1 else 2 * sel) else sel

/-- The three data bits of a data-enabled word of stage `j`, active low (R181). -/
def dataBits (d : Row) (j sel : Nat) : Word :=
  (if lineAsserted (line1 d j) sel then 0x0001#16 else 0#16) |||
    (if lineAsserted (line2 d j) sel then 0x0002#16 else 0#16) |||
    (if lineAsserted (line3 d j) sel then 0x0004#16 else 0#16)

/-- The output word of template word `w` in stage `j` of a non-empty row, with the selector in force at that word
(R104, R183). -/
def encodeWord (d : Row) (j sel : Nat) (w : Word) : Word :=
  (w &&& keepMask d j) ||| (if dataEnabled w then dataBits d j sel else 0#16) |||
    (if syncSelect w (syncBit j) then 0x0008#16 else 0#16)

/-- What ENC carries from word to word: the cursor, the selector, the toggle state and the buffer (R36, R37). -/
structure EncLoop where
  cur : Nat
  sel : Nat
  lastTog : BitVec 2
  ob : Memory
  deriving DecidableEq, Repr

/-- The body of ENC's inner loop: one template word of stage `j` (R175). -/
def encBody (d : Row) (j : Nat) (e : EncLoop) (w : Word) : EncLoop :=
  if rowEmpty d then { e with ob := e.ob.write e.cur 0#16, cur := e.cur + 1 }
  else
    let sel := nextSel e.sel e.lastTog (togField w)
    { cur := e.cur + 1, sel := sel, lastTog := togField w, ob := e.ob.write e.cur (encodeWord d j sel w) }

/-- One stage: the selector and the toggle state start at 0 (R185), the template is walked once, and the cursor moves
on by the gap of 8 cells that nothing writes (R184). -/
def encStage (tp : List Word) (d : Row) (e : EncLoop) (j : Nat) : EncLoop :=
  let e' := tp.foldl (encBody d j) { e with sel := 0, lastTog := 0#2 }
  { e' with cur := e'.cur + 8 }

/-- "rounded up to the next even value" (R187). -/
def roundUpEven (n : Nat) : Nat := if n % 2 = 1 then n + 1 else n

/-- ENC: the returned length and the buffer it leaves (R175, R186). -/
def enc (tp : List Word) (d : Row) (ob : Memory) : Nat × Memory :=
  let e := (List.range 14).foldl (encStage tp d) { cur := 0, sel := 0, lastTog := 0#2, ob := ob }
  (roundUpEven e.cur, e.ob)

/-! ### The operations -/

/-- OBCLR: every cell of `OB` to zero (R171). -/
def execObclr (s : State) : Host.Outcome State Fault Refusal :=
  .next { s with ob := s.ob.zeroBelow s.cfg.obCap }

/-- GEN: encodes `NB` with the selected template and latches the length in `WLEN` (R170).  The capacity R174 asks for is
a part of the configuration (notes/assumptions/2.md); on an `NB` or a `TSEL` that holds no value the encoder runs on
what the register holds (notes/assumptions/6.md). -/
def execGen (s : State) : Host.Outcome State Fault Refusal :=
  let r := enc (selectedTemplate s) s.nb s.ob
  .next { s with ob := r.2, wlen := BitVec.ofNat 16 r.1 }

end Sys2Proof.Machine
end

