-- ==== Sys2Proof/Machine/Drainer.lean ====
section
/-! DEFINITION. The buffer drainer and the synchronous word pusher: FILL, EMIT (spec/44_drainer.md). -/

namespace Sys2Proof.Machine

/-- FILL with a row that TRYRECV took: the row is encoded with the selected template if its waveform fits `len`
(R230, R233). -/
def fillWithRow (len : Nat) (row : Row) (s : State) : Host.Outcome State Fault Refusal :=
  if waveFits (selectedTemplate s).length len then
    .next (fillExit len { s with ob := (enc (selectedTemplate s) row s.ob).2 })
  else .refused .lenTooSmall

/-- The body of FILL: `OB[0..len-1]` is zeroed (R232), the pending row is taken (R216), and it is encoded, or the idle
pattern stays (R230, R234). -/
def fillBody (len : Nat) (s : State) : Host.Outcome State Fault Refusal :=
  match tryRecv { s with ob := s.ob.zeroBelow len } with
  | (some row, s') => fillWithRow len row s'
  | (none, s') => .next (fillExit len s')

/-- FILL len (R230 to R238). -/
def execFill (len : Nat) (s : State) : Host.Outcome State Fault Refusal :=
  match s.drainer with
  | .filling => .refused .fillOverrun
  | .idle => if len ≤ s.cfg.obCap then fillBody len (fillEntry s) else .refused .lenOverCapacity

/-- EMIT: the words `OB[0..WLEN-1]` go to the word-out port in ascending order (R240). -/
def execEmit (s : State) : Host.Outcome State Fault Refusal :=
  if s.wlen.toNat ≤ s.cfg.obCap then .next (pushWords s.wlen.toNat s) else .fault .obCellAbsent

end Sys2Proof.Machine
end

