-- ==== Sys2Proof/Machine/Queue.lean ====
section
/-! DEFINITION. The firing queue: SEND (spec/43_queue.md).  TRYRECV, which occurs only inside FILL, is `tryRecv` in
Machine/Ops.lean. -/

namespace Sys2Proof.Machine

/-- SEND: while the slot is full it stalls and no state changes (R214), else it hands the row off (R212, R213).  That a
stalled SEND stays presented on the producer port is in Machine/Ports.lean (notes/assumptions/8.md). -/
def execSend (s : State) : Host.Outcome State Fault Refusal :=
  if s.qf then .next s else .next (handOff s)

end Sys2Proof.Machine
end

