-- ==== Sys2Proof/Machine/Template.lean ====
section
/-! DEFINITION. The template library: TSEL (spec/41_template_library.md). -/

namespace Sys2Proof.Machine

/-- TSEL t: `TSEL <- t` (R160). -/
def execTsel (t : Cartridge) (s : State) : Host.Outcome State Fault Refusal :=
  .next { s with tsel := t, tselHeld := true }

end Sys2Proof.Machine
end

