-- ==== Sys2Proof/Machine/Dispatch.lean ====
section
/-! DEFINITION. One arm for each operation of the opcode table (spec/30_encoding.md R118). -/

namespace Sys2Proof.Machine

def exec (i : Instr) (s : State) : Host.Outcome State Fault Refusal :=
  match i with
  | .nbclr => Sys2Proof.Machine.execNbclr s
  | .setc p color => Sys2Proof.Machine.execSetc p color s
  | .setb p row => Sys2Proof.Machine.execSetb p row s
  | .tsel t => Sys2Proof.Machine.execTsel t s
  | .obclr => Sys2Proof.Machine.execObclr s
  | .gen => Sys2Proof.Machine.execGen s
  | .emit => Sys2Proof.Machine.execEmit s
  | .send => Sys2Proof.Machine.execSend s
  | .fill len => Sys2Proof.Machine.execFill len s

end Sys2Proof.Machine
end

