-- ==== Sys2Proof/Machine/Ports.lean ====
section
/-! DEFINITION. The two command ports: which command is performed when a port is served
(spec/30_encoding.md R111, R120; spec/43_queue.md R214). -/

namespace Sys2Proof.Machine

/-- The operation a word on a port stands for: none if the word matches no pattern, or if the operation is not accepted on
that port (R120). -/
def commandOn (p : Port) (w : Command) : Option Instr :=
  match decode w with
  | .ok i => if i.port = p then some i else none
  | .error _ => none

/-- `cmd_ready` of the producer port: "0 exactly while the presented command is a SEND and `QF = 1`" (R111, R214). -/
def cmdReady (w : Command) (s : State) : Bool :=
  match commandOn .producer w with
  | some .send => !s.qf
  | _ => true

/-- Perform a command on a port.  "The hardware performs an illegal command as no operation: no state changes, nothing is
signalled" (R120; notes/assumptions/7.md). -/
def runOn (p : Port) (w : Command) (s : State) : Host.Outcome State Fault Refusal :=
  match commandOn p w with
  | some i => exec i s
  | none => .next s

/-- The producer port is served: the presented command is performed when `cmd_ready` is 1 and leaves the port; a stalled
SEND stays presented, so the producer issues nothing further (R111, R214; notes/assumptions/8.md). -/
def serveProducer (s : State) : Host.Outcome State Fault Refusal :=
  match s.cmds with
  | [] => .next s
  | w :: ws => if cmdReady w s then runOn .producer w { s with cmds := ws } else .next s

/-- The consumer port is served: the oldest fill request is performed; it is never made to wait (R111, R235, R255). -/
def serveConsumer (s : State) : Host.Outcome State Fault Refusal :=
  match s.reqs with
  | [] => .next s
  | w :: ws => runOn .consumer w { s with reqs := ws }

/-- Serve one port. -/
def serve (p : Port) (s : State) : Host.Outcome State Fault Refusal :=
  match p with
  | .producer => serveProducer s
  | .consumer => serveConsumer s

/-- Take one turn of the schedule; with no turn left nothing is served and nothing changes (R260;
notes/assumptions/9.md). -/
def takeTurn (s : State) : Host.Outcome State Fault Refusal :=
  match s.sched with
  | [] => .next s
  | p :: rest => serve p { s with sched := rest }

/-- Present a command on a port, before every command presented there, and give that port the next turn. -/
def present (p : Port) (w : Command) (s : State) : State :=
  match p with
  | .producer => { s with cmds := w :: s.cmds, sched := .producer :: s.sched }
  | .consumer => { s with reqs := w :: s.reqs, sched := .consumer :: s.sched }

/-- The port a word belongs on: the consumer port for `OPC = FILL` (R111, R118). -/
def portOf (w : Command) : Port := if fieldOpc w = 9 then .consumer else .producer

end Sys2Proof.Machine
end

