-- ==== Sys2Proof/Machine/EncoderForms.lean ====
section
/-! DEFINITION. The two other formulations of ENC the spec gives: the closed form of R189 and the word-serial machine of
R190.  No instruction is defined by them; Sys2Proof/Certificates/Slice0/Obligations.lean states that they agree with
ENC (spec/42_encoder.md). -/

namespace Sys2Proof.Machine

/-! ### The closed form (R189) -/

/-- `tog(i) = tp[i][1:0]` (R189). -/
def togAt (tp : List Word) (i : Nat) : BitVec 2 := togField (tp.getD i 0#16)

/-- `tog(i-1)`, with `tog(-1) = 0` (R189). -/
def togBefore (tp : List Word) (i : Nat) : BitVec 2 := if i = 0 then 0#2 else togAt tp (i - 1)

/-- `n(i)`: the number of `m` in `0..i` with `tog(m) != tog(m-1)` (R189). -/
def transitionsUpTo (tp : List Word) (i : Nat) : Nat :=
  ((List.range (i + 1)).filter (fun m => togAt tp m != togBefore tp m)).length

/-- `sel(i)`: 0 before the first transition, `2^(n(i)-1)` from it on (R189). -/
def selAt (tp : List Word) (i : Nat) : Nat :=
  if transitionsUpTo tp i = 0 then 0 else 2 ^ (transitionsUpTo tp i - 1)

/-- The word R189 gives for word `i` of stage `j`. -/
def closedWord (tp : List Word) (d : Row) (j i : Nat) : Word :=
  if rowEmpty d then 0x0000#16
  else
    (tp.getD i 0#16 &&& keepMask d j)
      ||| (if togAt tp i ≠ 0#2 then
            (if (cell d j).toNat &&& selAt tp i = 0 then 1#16 else 0#16)
              ||| (if (cell d (14 + j)).toNat &&& selAt tp i = 0 then 2#16 else 0#16)
              ||| (if (cell d (28 + j)).toNat &&& selAt tp i = 0 then 4#16 else 0#16)
          else 0#16)
      ||| (if (tp.getD i 0#16).getLsbD (syncBit j) then 8#16 else 0#16)

/-- What R189 says of cell `n` of `OB`: the word ENC writes there, or none where ENC writes nothing (the gap cells of each
stage, and every cell from `14*(TL+8)` on). -/
def closedCell (tp : List Word) (d : Row) (n : Nat) : Option Word :=
  if n / (tp.length + 8) < 14 ∧ n % (tp.length + 8) < tp.length then
    some (closedWord tp d (n / (tp.length + 8)) (n % (tp.length + 8)))
  else none

/-! ### The word-serial machine (R190) -/

/-- Its state: (`j`, `i`, `cur`, `sel`, `last_tog`, `empty`, `keep`, `syncbit`), and the buffer it writes (R36, R37, R190). -/
structure Serial where
  j : Nat
  i : Nat
  cur : Nat
  sel : Nat
  lastTog : BitVec 2
  empty : Bool
  keep : Word
  syncbit : Nat
  ob : Memory
  deriving DecidableEq, Repr

/-- The start of an encode (R36, R175, R176). -/
def serialStart (d : Row) (ob : Memory) : Serial where
  j := 0
  i := 0
  cur := 0
  sel := 0
  lastTog := 0#2
  empty := rowEmpty d
  keep := keepMask d 0
  syncbit := syncBit 0
  ob := ob

/-- One step with a word left in the stage: the body of the inner loop (R190). -/
def serialWord (d : Row) (w : Word) (x : Serial) : Serial :=
  if x.empty then { x with ob := x.ob.write x.cur 0#16, cur := x.cur + 1, i := x.i + 1 }
  else
    let sel := nextSel x.sel x.lastTog (togField w)
    let out := (w &&& x.keep) ||| (if dataEnabled w then dataBits d x.j sel else 0#16) |||
      (if syncSelect w x.syncbit then 0x0008#16 else 0#16)
    { x with ob := x.ob.write x.cur out, cur := x.cur + 1, i := x.i + 1, sel := sel, lastTog := togField w }

/-- The stage-end step: 8 is added to `cur`, `j` advances, and the per-stage values start again (R190). -/
def serialStageEnd (d : Row) (x : Serial) : Serial :=
  { x with j := x.j + 1, i := 0, cur := x.cur + 8, sel := 0, lastTog := 0#2, keep := keepMask d (x.j + 1),
           syncbit := syncBit (x.j + 1) }

/-- One step of the word-serial machine; after stage 13 it has returned and stands still (R190). -/
def serialStep (tp : List Word) (d : Row) (x : Serial) : Serial :=
  if 14 ≤ x.j then x
  else
    match tp[x.i]? with
    | some w => serialWord d w x
    | none => serialStageEnd d x

/-- `k` steps of the word-serial machine. -/
def serialRun (tp : List Word) (d : Row) : Nat → Serial → Serial
  | 0, x => x
  | k + 1, x => serialRun tp d k (serialStep tp d x)

end Sys2Proof.Machine
end

