-- ==== Sys2Proof/Machine/Outcomes.lean ====
section
/-! DEFINITION. The three outcomes the spec gives an operation: it completes, stalls, or is refused (spec/00_scope.md R16).
`exec` does what the hardware does and so runs an operation the spec refuses for a value nothing has written;
`specOutcome` and `specStep` are the same machine with every `require` line of the spec's pseudocode kept as a refusal
(notes/assumptions/6.md, 7.md, 8.md). -/

namespace Sys2Proof.Machine

/-- The reasons of the spec's `refuse(<reason>)`, and the two other cases it gives no meaning to. -/
inductive SpecRefusal where
  /-- SETC, SETB, GEN or SEND on an `NB` that holds no value (R24; spec/93_implementation_defined.md S3). -/
  | nbUndefined
  /-- GEN, or a FILL that takes a row, on a `TSEL` that holds no value (R45, S4). -/
  | tselUndefined
  /-- EMIT of a cell that holds no value (R240, S5). -/
  | obUndefined
  /-- GEN with a waveform longer than `OB`, which the configuration excludes (R170, R174). -/
  | obTooSmall
  /-- FILL with `len` above `OB_CAP` (R233, S13). -/
  | lenOverCapacity
  /-- FILL with a pending row whose waveform is longer than `len` (R233, S13). -/
  | lenTooSmall
  /-- A word that is no operation, or one on the wrong port (R120, S10). -/
  | illegalWord
  /-- An access outside `OB` (R77) or a request during a fill (R258, S12), in no state a run reaches. -/
  | undefinedBehaviour
  deriving DecidableEq, Repr

/-- The outcome of an operation (R16).  A stalled operation has no step, so there is no state after it (R214). -/
inductive SpecOutcome where
  | completes (s : State)
  | stalls
  | refused (r : SpecRefusal)
  deriving DecidableEq, Repr

/-- Every cell `0..len-1` of `OB` holds a value (R240). -/
def obHeld (s : State) (len : Nat) : Bool := (List.range len).all fun n => (s.ob.read n).isSome

/-- GEN's `require` lines (R170). -/
def genRefusal (s : State) : Option SpecRefusal :=
  if s.nbHeld = false then some .nbUndefined
  else if s.tselHeld = false then some .tselUndefined
  else if waveFits (selectedTemplate s).length s.cfg.obCap then none
  else some .obTooSmall

/-- FILL's `require` lines (R230). -/
def fillRefusal (len : Nat) (s : State) : Option SpecRefusal :=
  if s.cfg.obCap < len then some .lenOverCapacity
  else if s.qf = false then none
  else if s.tselHeld = false then some .tselUndefined
  else if waveFits (selectedTemplate s).length len then none
  else some .lenTooSmall

/-- The reason for which the spec's pseudocode refuses operation `i` in state `s`, if it does: the `require` lines of
R131, R140, R170, R212, R230 and R240. -/
def specRefusal (i : Instr) (s : State) : Option SpecRefusal :=
  match i with
  | .nbclr => none
  | .setc _ _ => if s.nbHeld then none else some .nbUndefined
  | .setb _ _ => if s.nbHeld then none else some .nbUndefined
  | .tsel _ => none
  | .obclr => none
  | .gen => genRefusal s
  | .emit => if obHeld s s.wlen.toNat then none else some .obUndefined
  | .send => if s.qf then none else if s.nbHeld then none else some .nbUndefined
  | .fill len => fillRefusal len s

/-- "Only SEND stalls": while the slot is full (R16, R214). -/
def specStalls (i : Instr) (s : State) : Bool := decide (i = .send) && s.qf

/-- The outcome of an operation whose preconditions hold: what the hardware does. -/
def outcomeOfRun : Host.Outcome State Fault Refusal → SpecOutcome
  | .next s => .completes s
  | .fault _ => .refused .undefinedBehaviour
  | .refused _ => .refused .undefinedBehaviour

/-- The one outcome of operation `i` in state `s`, as the spec gives it (R16). -/
def specOutcome (i : Instr) (s : State) : SpecOutcome :=
  if specStalls i s then .stalls
  else
    match specRefusal i s with
    | some r => .refused r
    | none => outcomeOfRun (exec i s)

/-- The outcome of a command word on a port: an illegal one is refused, as R120 asks of a model. -/
def specWord (p : Port) (w : Command) (s : State) : SpecOutcome :=
  match commandOn p w with
  | some i => specOutcome i s
  | none => .refused .illegalWord

/-- The outcome of serving a port; one that presents nothing completes at once (notes/assumptions/9.md). -/
def specServe (p : Port) (s : State) : SpecOutcome :=
  match p with
  | .producer =>
    match s.cmds with
    | [] => .completes s
    | w :: ws => specWord .producer w { s with cmds := ws }
  | .consumer =>
    match s.reqs with
    | [] => .completes s
    | w :: ws => specWord .consumer w { s with reqs := ws }

/-- One step of the machine with the spec's refusals kept: where it completes, `step` does the same
(`specStep_completes` in Sys2Proof/Laws/Outcomes.lean). -/
def specStep (s : State) : SpecOutcome :=
  match s.sched with
  | [] => .completes s
  | p :: rest => specServe p { s with sched := rest }

end Sys2Proof.Machine
end

