-- ==== Sys2Proof/Safety.lean ====
section
/-! DEFINITION. What counts as a safe run, in the terms the statements use: the invariant of the machine, the usage rules of
software (spec/70_reset_and_hazards.md R290 to R295), and when two states agree on everything the spec gives a value.
(Where the spec itself refuses an operation is in Machine/Outcomes.lean.) -/

namespace Sys2Proof.Machine

/-! ### The invariant -/

/-- Every listed cell of `OB` exists: its index is below `n` (R30, R77). -/
def Memory.below (m : Memory) (n : Nat) : Bool := m.all fun c => decide (c.1 < n)

/-- `WLEN` is 0 (no GEN yet) or the waveform length of one of the four templates (R33, R45, R186). -/
def wlenLegal (s : State) : Prop :=
  s.wlen.toNat = 0 ∨ ∃ t : Cartridge, s.wlen.toNat = waveLength (s.cfg.template t).length

/-- What every state of a run meets. -/
structure Inv (s : State) : Prop where
  /-- `OB` is in canonical form. -/
  obCanonical : s.ob.wf = true
  /-- No cell of `OB` outside `0..OB_CAP-1` is listed (R70, R77). -/
  obInside : s.ob.below s.cfg.obCap = true
  /-- `WLEN` holds what a GEN returned (R33). -/
  wlenIsLength : wlenLegal s
  /-- Between operations the drainer is IDLE (R38). -/
  drainerIdle : s.drainer = .idle

/-! ### Usage rules of software (R290 to R293) -/

/-- The operations of the synchronous deployment only (R4, R293). -/
def syncOnly : Instr → Bool
  | .obclr => true
  | .gen => true
  | .emit => true
  | .nbclr => false
  | .setc _ _ => false
  | .setb _ _ => false
  | .tsel _ => false
  | .send => false
  | .fill _ => false

/-- The operations of the real-time deployment only (R4, R293). -/
def realTimeOnly : Instr → Bool
  | .send => true
  | .fill _ => true
  | .nbclr => false
  | .setc _ _ => false
  | .setb _ _ => false
  | .tsel _ => false
  | .obclr => false
  | .gen => false
  | .emit => false

/-- "One deployment at a time" (R293). -/
def oneDeployment (is : List Instr) : Bool := !(is.any syncOnly && is.any realTimeOnly)

/-- The gap cells of the selected template's waveform hold zero: GEN "intentionally does not write every slot" (R291). -/
def gapsZero (s : State) : Bool :=
  (List.range (waveLength (selectedTemplate s).length)).all fun n =>
    decide (n % ((selectedTemplate s).length + 8) < (selectedTemplate s).length) || s.ob.read n == some 0#16

/-- A use the spec's hazard rules forbid software, though the hardware performs it: a GEN over gap cells that are not zero
(R291), and a TSEL while a row is pending (R292).  (A missing NBCLR, R290, shows in `specRefusal`.) -/
def usageHazard (i : Instr) (s : State) : Bool :=
  match i with
  | .gen => !gapsZero s
  | .tsel t => s.qf && decide (t ≠ s.tsel)
  | .nbclr => false
  | .setc _ _ => false
  | .setb _ _ => false
  | .obclr => false
  | .emit => false
  | .send => false
  | .fill _ => false

/-! ### Agreement on what holds a value -/

/-- Two states that agree on everything the spec gives a value: they may differ in `NB` and `TSEL` where those hold none,
in `QS` while `QF = 0` (R26), in `RB`, which no later operation reads (R27), and in what the free values were.  What they
have put on the bus is the same. -/
structure Agree (s t : State) : Prop where
  cfg : s.cfg = t.cfg
  nbHeld : s.nbHeld = t.nbHeld
  nb : s.nbHeld = true → s.nb = t.nb
  qf : s.qf = t.qf
  qs : s.qf = true → s.qs = t.qs
  tselHeld : s.tselHeld = t.tselHeld
  tsel : s.tselHeld = true → s.tsel = t.tsel
  wlen : s.wlen = t.wlen
  ob : s.ob = t.ob
  drainer : s.drainer = t.drainer
  events : s.events = t.events

/-! ### Runs of operations, whatever port they come from -/

/-- The operations of a list performed one after another, stopping at the first fault or refusal (R72). -/
def execAll : List Instr → State → Host.Outcome State Fault Refusal
  | [], s => .next s
  | i :: is, s =>
    match exec i s with
    | .next s' => execAll is s'
    | .fault f => .fault f
    | .refused r => .refused r

/-- How many SENDs of a list complete: those performed with `QF = 0` (R214, R219). -/
def sendsCompleted : List Instr → State → Nat
  | [], _ => 0
  | i :: is, s =>
    match exec i s with
    | .next s' => (if i = .send ∧ s.qf = false then 1 else 0) + sendsCompleted is s'
    | .fault _ => 0
    | .refused _ => 0

/-- How many FILLs of a list take a row: those performed with `QF = 1` (R216, R219). -/
def rowsTaken : List Instr → State → Nat
  | [], _ => 0
  | i :: is, s =>
    match exec i s with
    | .next s' => (if i.port = .consumer ∧ s.qf = true then 1 else 0) + rowsTaken is s'
    | .fault _ => 0
    | .refused _ => 0

end Sys2Proof.Machine
end

