-- ==== Sys2Proof/Certificates/Slice0/Obligations.lean ====
section
/-! DEFINITION. The statements for the provers.  Each docstring names the rules of spec/ it formalises. -/

open Sys2Proof Sys2Proof.Machine

/-! ### Encoding -/

/-- Every operation whose operands fit their fields is read back from its command word (R110, R119). Of these the spec
marks as its own decision R110 (D12), R119 (D12). -/
def Obligations.DecodeOfEncodeIsTheInstruction : Prop :=
  ∀ i : Instr, i.wellFormed = true → decode (encode i) = .ok i

/-- Every word the decoder accepts is the word of the operation it reads, whose operands fit their fields: no bit of a
legal word is dropped, and no two words are one operation (R110, R119, R120). Of these the spec marks as its own
decision R110 (D12), R119 (D12), R120 (D23). -/
def Obligations.EncodeOfDecodeIsTheWord : Prop :=
  ∀ (w : Command) (i : Instr), decode w = .ok i → encode i = w ∧ i.wellFormed = true

/-- R119: a word is read as the operation of a row of the table exactly when `w AND mask = match`, and the rows are
disjoint. Of these the spec marks as its own decision R119 (D12). -/
def Obligations.WordSelectsExactlyItsPattern : Prop :=
  (∀ (w : Command) (r : Pattern), r ∈ patterns →
    (w &&& r.mask = r.value ↔ ∃ i, decode w = .ok i ∧ i.mnemonic = r.mnemonic)) ∧
  (∀ (w : Command) (r r' : Pattern), r ∈ patterns → r' ∈ patterns →
    w &&& r.mask = r.value → w &&& r'.mask = r'.value → r = r')

/-- Command words of spec/95_test_vectors.md section 2, one of each operation at least, and three illegal words. -/
def Obligations.SampleWordsDecode : Prop :=
  decode 0x10000000#32 = .ok .nbclr ∧ decode 0x20020061#32 = .ok (.setc 97 2) ∧
  decode 0x2000FFFF#32 = .ok (.setc (-1) 0) ∧ decode 0x20018000#32 = .ok (.setc (-32768) 1) ∧
  decode 0x300100A7#32 = .ok (.setb 167 1) ∧ decode 0x40020000#32 = .ok (.tsel .blackA) ∧
  decode 0x50000000#32 = .ok .obclr ∧ decode 0x60000000#32 = .ok .gen ∧ decode 0x70000000#32 = .ok .emit ∧
  decode 0x80000000#32 = .ok .send ∧ decode 0x90000196#32 = .ok (.fill 406) ∧
  decode 0x00000000#32 = .error .unknownOpcode ∧ decode 0x20040000#32 = .error .nonzeroZ ∧
  decode 0x30020000#32 = .error .rowBit17

/-! ### The step and the ports -/

/-- When a port has the turn and the word presented on it is an operation of that port, the step is that operation's
meaning, the word and the turn being used up (R17, R111). A SEND on a full slot is the one exception
(StalledSendStaysPresented). Of these the spec marks as its own decision R17 (D17), R111 (D12). -/
def Obligations.StepRunsThePresentedCommand : Prop :=
  (∀ (s : State) (w : Command) (ws : List Command) (r : List Port) (i : Instr),
    s.sched = .producer :: r → s.cmds = w :: ws → decode w = .ok i → i.port = .producer →
    (i = .send → s.qf = false) → step s = exec i { s with sched := r, cmds := ws }) ∧
  (∀ (s : State) (w : Command) (ws : List Command) (r : List Port) (i : Instr),
    s.sched = .consumer :: r → s.reqs = w :: ws → decode w = .ok i → i.port = .consumer →
    step s = exec i { s with sched := r, reqs := ws })

/-- A stalled SEND changes nothing and stays presented, so that the producer issues nothing further (R111, R214;
notes/assumptions/8.md). Of these the spec marks as its own decision R111 (D12), R214 (D19). -/
def Obligations.StalledSendStaysPresented : Prop :=
  ∀ (s : State) (w : Command) (ws : List Command) (r : List Port),
    s.sched = .producer :: r → s.cmds = w :: ws → decode w = .ok .send → s.qf = true →
    step s = .next { s with sched := r }

/-- The hardware performs an illegal word, and a word on the wrong port, as no operation (R120). That the model does
what the hardware does, and does not refuse, is notes/assumptions/7.md. Of these the spec marks as its own decision R120
(D23). -/
def Obligations.IllegalWordDoesNothing : Prop :=
  (∀ (s : State) (w : Command) (ws : List Command) (r : List Port),
    s.sched = .producer :: r → s.cmds = w :: ws → (∀ i, decode w = .ok i → i.port ≠ .producer) →
    step s = .next { s with sched := r, cmds := ws }) ∧
  (∀ (s : State) (w : Command) (ws : List Command) (r : List Port),
    s.sched = .consumer :: r → s.reqs = w :: ws → (∀ i, decode w = .ok i → i.port ≠ .consumer) →
    step s = .next { s with sched := r, reqs := ws })

/-- A port that presents nothing, and a schedule that is over, change nothing: the model's own convention
(notes/assumptions/9.md). -/
def Obligations.StepWithNothingToServe : Prop :=
  (∀ s : State, s.sched = [] → step s = .next s) ∧
  (∀ (s : State) (r : List Port), s.sched = .producer :: r → s.cmds = [] → step s = .next { s with sched := r }) ∧
  (∀ (s : State) (r : List Port), s.sched = .consumer :: r → s.reqs = [] → step s = .next { s with sched := r })

/-- A command word presented for the next step is the one that step performs (notes/assumptions/10.md). -/
def Obligations.FetchWordIsPerformedNext : Prop :=
  ∀ (s : State) (i : Instr), i.wellFormed = true → (i = .send → s.qf = false) →
    step (s.withFetchWord 32 (encode i).toNat) = exec i s

/-- What lifts the hold of a SEND is a FILL that takes the row: with the producer's SEND stalled, the consumer's turn
and then the producer's turn complete both, the fill with the old row and the SEND with the new one (R214, R218). That
the first turn is a step in which nothing happens, and not a wait, is the model's choice (notes/assumptions/8.md). That
the FILL completes also where `TSEL`, and the SEND also where `NB`, holds no value, where the spec refuses it, is the
model's choice (notes/assumptions/6.md). Of these the spec marks as its own decision R214 (D19), R218 (D17). -/
def Obligations.StalledSendCompletesAfterAFill : Prop :=
  ∀ (s : State) (w f : Command) (ws fs : List Command) (r : List Port) (len : Nat),
    s.qf = true → s.drainer = .idle → s.sched = .producer :: .consumer :: .producer :: r →
    s.cmds = w :: ws → decode w = .ok .send → s.reqs = f :: fs → decode f = .ok (.fill len) →
    waveLength (selectedTemplate s).length ≤ len → len ≤ s.cfg.obCap →
    ∃ s1 s2 t, step s = .next s1 ∧ step s1 = .next s2 ∧ step s2 = .next t ∧
      t.qf = true ∧ t.qs = s.nb ∧ t.rb = s.qs ∧ t.cmds = ws ∧ t.reqs = fs ∧ t.sched = r

/-! ### The nozzle addresser -/

/-- R130: NBCLR, `0x10000000`, clears all 42 cells, after which `NB` holds a value, and changes nothing else; twice is the
same as once. -/
def Obligations.NbclrClearsEveryCell : Prop :=
  decode 0x10000000#32 = .ok .nbclr ∧ ∀ s : State, ∃ nb' : Row, exec .nbclr s = .next { s with nb := nb', nbHeld := true } ∧
    (∀ a, a < 42 → cell nb' a = 0#8) ∧
    exec .nbclr { s with nb := nb', nbHeld := true } = .next { s with nb := nb', nbHeld := true }

/-- SETC on its valid domain sets exactly the bit at the coordinate, given here by the closed form of R136, clears none,
and changes nothing but `NB` (R131, R133, R134, R136). That the operation runs also where `NB` holds no value, where the
spec refuses it, is the model's choice (notes/assumptions/6.md). Of these the spec marks as derived R136. -/
def Obligations.SetcSetsOneBit : Prop :=
  ∀ (s : State) (p : Nat) (color : Fin 4), p ≤ 111 → color.val ≤ 2 →
    ∃ nb' : Row, exec (.setc (p : Int) color) s = .next { s with nb := nb' } ∧
      ∀ a b, a < 42 → b < 8 → (cell nb' a).getLsbD b =
        ((cell s.nb a).getLsbD b ||
          decide (a = 14 * color.val + ([8, 11, 0].getD color.val 0 + 5 * (p % 14)) % 14 ∧ b = p / 14))

/-- R132: SETC does nothing when `p < 0` or `p > 112` or `color = 3`, and proceeds to its write when `0 <= p <= 112`.
That the operation runs also where `NB` holds no value, where the spec refuses it, is the model's choice
(notes/assumptions/6.md). Of these the spec marks as its own decision R132 (D1, D4). -/
def Obligations.SetcRangeTest : Prop :=
  (∀ (s : State) (p : Int) (color : Fin 4), p < 0 ∨ 112 < p ∨ color.val = 3 →
    exec (.setc p color) s = .next s) ∧
  (∀ (s : State) (p : Nat) (color : Fin 4), p ≤ 112 → color.val ≤ 2 →
    exec (.setc (p : Int) color) s = .next (setNozzle (colorCoord p color.val) s))

/-- R135: `p = 112` passes the range test, its coordinate is bit 8 of cell 8, 25 or 28, its mask is zero, and `NB` is
unchanged. That the operation runs also where `NB` holds no value, where the spec refuses it, is the model's choice
(notes/assumptions/6.md). Of these the spec marks as derived R135. -/
def Obligations.SetcOneHundredTwelveChangesNothing : Prop :=
  ∀ (s : State) (color : Fin 4), color.val ≤ 2 →
    colorInRange 112 color.val = true ∧ colorCoord 112 color.val = ⟨[8, 25, 28].getD color.val 0, 8⟩ ∧
    (colorCoord 112 color.val).mask = 0#8 ∧ exec (.setc 112 color) s = .next s

/-- The two boundary tests the source states: `SETC -1, 0` and `SETC 113, 0` leave everything unchanged (R138). That the
operation runs also where `NB` holds no value, where the spec refuses it, is the model's choice
(notes/assumptions/6.md). -/
def Obligations.SetcBoundaryTests : Prop :=
  ∀ s : State, exec (.setc (-1) 0) s = .next s ∧ exec (.setc 113 0) s = .next s

/-- SETB on its valid domain sets exactly the bit at the coordinate, given here with the closed form of `NozzleInfo` of
R145, clears none, and changes nothing but `NB` (R140, R142, R143, R145, R146). That the operation runs also where `NB`
holds no value, where the spec refuses it, is the model's choice (notes/assumptions/6.md). Of these the spec marks as
derived R145, R142. -/
def Obligations.SetbSetsOneBit : Prop :=
  ∀ (s : State) (p : Nat) (row : Fin 2), p ≤ 167 →
    ∃ nb' : Row, exec (.setb (p : Int) row) s = .next { s with nb := nb' } ∧
      ∀ a b, a < 42 → b < 8 → (cell nb' a).getLsbD b =
        ((cell s.nb a).getLsbD b ||
          decide (a = 14 * (2 - (p / 14 + 12 * row.val) % 6 / 2) + blackByteOrder (1 - row.val) (13 - p % 14) ∧
            b = [0, 4, 2, 6].getD ((p / 14 + 12 * row.val) / 6) 0 + (p / 14 + 12 * row.val) % 2))

/-- SETB does nothing outside `0 <= p <= 167` for either row; inside it the lookups stay in their tables (R141). That
the operation runs also where `NB` holds no value, where the spec refuses it, is the model's choice
(notes/assumptions/6.md). Of these the spec marks as its own decision R141 (D3). -/
def Obligations.SetbRangeTest : Prop :=
  (∀ (s : State) (p : Int) (row : Fin 2), p < 0 ∨ 167 < p → exec (.setb p row) s = .next s) ∧
  (∀ (s : State) (p : Nat) (row : Fin 2), p ≤ 167 →
    exec (.setb (p : Int) row) s = .next (setNozzle (blackCoord p row.val) s) ∧
    p + 168 * row.val ≤ 335 ∧ (p + 168 * row.val) / 14 < nozzleInfoTable.length)

/-- R137: colour addressing is a bijection of `0..111` and the three colours onto the 336 coordinates, colour `color`
touches only group `color`, and consecutive `p` fall in different columns and in the same bit until `p` passes a
multiple of 14. Of these the spec marks as derived R137. -/
def Obligations.ColorAddressingIsABijection : Prop :=
  (∀ p color : Nat, p ≤ 111 → color ≤ 2 →
    (colorCoord p color).byteIndex / 14 = color ∧ (colorCoord p color).bitIndex < 8) ∧
  (∀ p color : Nat, p < 111 → color ≤ 2 →
    (colorCoord p color).byteIndex % 14 ≠ (colorCoord (p + 1) color).byteIndex % 14 ∧
    ((p + 1) % 14 ≠ 0 → (colorCoord p color).bitIndex = (colorCoord (p + 1) color).bitIndex)) ∧
  (∀ a b : Nat, a < 42 → b < 8 → ∃ p color : Nat, p ≤ 111 ∧ color ≤ 2 ∧ colorCoord p color = ⟨a, b⟩ ∧
    ∀ p' color' : Nat, p' ≤ 111 → color' ≤ 2 → colorCoord p' color' = ⟨a, b⟩ → p' = p ∧ color' = color)

/-- R149: black addressing is a bijection of `0..167` and the two rows onto the 336 coordinates; each (group, bit) pair
stands in exactly one entry of `NozzleInfo`, and in each order `k` runs through a permutation of the 14 columns. Of
these the spec marks as derived R149. -/
def Obligations.BlackAddressingIsABijection : Prop :=
  (∀ p row : Nat, p ≤ 167 → row ≤ 1 → (blackCoord p row).byteIndex < 42 ∧ (blackCoord p row).bitIndex < 8) ∧
  (∀ a b : Nat, a < 42 → b < 8 → ∃ p row : Nat, p ≤ 167 ∧ row ≤ 1 ∧ blackCoord p row = ⟨a, b⟩ ∧
    ∀ p' row' : Nat, p' ≤ 167 → row' ≤ 1 → blackCoord p' row' = ⟨a, b⟩ → p' = p ∧ row' = row) ∧
  (∀ c b : Nat, c < 3 → b < 8 → ∃ jn, jn < 24 ∧ (nozzleInfo jn).c = c ∧ (nozzleInfo jn).bit = b ∧
    ∀ jn', jn' < 24 → (nozzleInfo jn').c = c → (nozzleInfo jn').bit = b → jn' = jn) ∧
  (∀ order e : Nat, order < 2 → e < 14 → ∃ k, k < 14 ∧ blackByteOrder order k = e ∧
    ∀ k', k' < 14 → blackByteOrder order k' = e → k' = k)

/-- `SETB 0,0` and `SETB 0,1` set (cell 34, bit 0) and (cell 33, bit 2), and row 0 and row 1 never share a coordinate
(R148, R149). That the operation runs also where `NB` holds no value, where the spec refuses it, is the model's choice
(notes/assumptions/6.md). Of these the spec marks as derived R149. -/
def Obligations.BlackRowsNeverShareACoordinate : Prop :=
  (∀ s : State, exec (.setb 0 0) s = .next (setNozzle ⟨34, 0⟩ s) ∧
    exec (.setb 0 1) s = .next (setNozzle ⟨33, 2⟩ s)) ∧
  ∀ p p' : Nat, p ≤ 167 → p' ≤ 167 → blackCoord p 0 ≠ blackCoord p' 1

/-- Any two of SETC and SETB commute, and each is idempotent (R67). That the operation runs also where `NB` holds no
value, where the spec refuses it, is the model's choice (notes/assumptions/6.md). Of these the spec marks as derived
R67. -/
def Obligations.AddresserOperationsCommute : Prop :=
  (∀ (s : State) (i j : Instr), ((∃ p c, i = .setc p c) ∨ ∃ p r, i = .setb p r) →
    ((∃ p c, j = .setc p c) ∨ ∃ p r, j = .setb p r) →
    ∃ s1 s2 t, exec i s = .next s1 ∧ exec j s1 = .next t ∧ exec j s = .next s2 ∧ exec i s2 = .next t) ∧
  (∀ (s : State) (i : Instr), ((∃ p c, i = .setc p c) ∨ ∃ p r, i = .setb p r) →
    ∃ t, exec i s = .next t ∧ exec i t = .next t)

/-! ### The template library -/

/-- R160: TSEL, `0x40000000 OR (t << 16)`, does `TSEL <- t` and nothing else, after which the encoder's template is
`TPLROM[t]`. Of these the spec marks as its own decision R160 (D11, D12). -/
def Obligations.TselSelectsTheTemplate : Prop :=
  (∀ c : Cartridge, decode (0x40000000#32 ||| BitVec.ofNat 32 (c.code <<< 16)) = .ok (.tsel c)) ∧
  ∀ (s : State) (c : Cartridge), ∃ t, exec (.tsel c) s = .next t ∧ t = { s with tsel := c, tselHeld := true } ∧
    selectedTemplate t = s.cfg.template c

/-! ### The waveform encoder -/

/-- R171: OBCLR, `0x50000000`, zeroes every cell of `OB` and changes nothing else, `WLEN` among it. Of these the spec
marks as its own decision R171 (D12). -/
def Obligations.ObclrZeroesTheOutputBuffer : Prop :=
  decode 0x50000000#32 = .ok .obclr ∧ ∀ s : State, ∃ ob' : Memory, exec .obclr s = .next { s with ob := ob' } ∧
    (∀ n, n < s.cfg.obCap → ob'.read n = some 0#16) ∧ (∀ n, s.cfg.obCap ≤ n → ob'.read n = s.ob.read n)

/-- R189: the algorithm of R175 leaves in every cell of `OB` what the closed form gives, and every other cell unchanged.
Of these the spec marks as derived R189. -/
def Obligations.EncoderMatchesTheClosedForm : Prop :=
  ∀ (tp : List Word) (d : Row) (ob : Memory) (n : Nat),
    (enc tp d ob).2.read n = (match closedCell tp d n with | some w => some w | none => ob.read n)

/-- The word-serial machine of R190 is the algorithm of R175: after one step for each word and one for each stage end it
has returned, with the same length and the same buffer. Of these the spec marks as derived R190. -/
def Obligations.WordSerialMachineMatchesTheEncoder : Prop :=
  ∀ (tp : List Word) (d : Row) (ob : Memory),
    (serialRun tp d (14 * (tp.length + 1)) (serialStart d ob)).j = 14 ∧
    (serialRun tp d (14 * (tp.length + 1)) (serialStart d ob)).cur = (enc tp d ob).1 ∧
    (serialRun tp d (14 * (tp.length + 1)) (serialStart d ob)).ob = (enc tp d ob).2

/-- R186: the returned length is `14*(TL+8)`, whatever the row holds. -/
def Obligations.EncodedLengthIsIndependentOfTheRow : Prop :=
  (∀ (tp : List Word) (d : Row) (ob : Memory), (enc tp d ob).1 = 14 * (tp.length + 8)) ∧
  waveLength 0 = 112 ∧ waveLength 1 = 126 ∧ waveLength 21 = 406 ∧ waveLength 100 = 1512

/-- R187: rounding up to even never changes a waveform length; it leaves an even value and adds one to an odd one. Of
these the spec marks as derived R187. -/
def Obligations.RoundingNeverChangesALength : Prop :=
  (∀ n : Nat, roundUpEven (waveLength n) = waveLength n) ∧
  (∀ x : Nat, x % 2 = 0 → roundUpEven x = x) ∧ (∀ x : Nat, x % 2 = 1 → roundUpEven x = x + 1)

/-- R10, R174: the configuration has room for the waveform of every template, so GEN cannot overrun `OB`; that every
configuration of the model has it is notes/assumptions/2.md. Of these the spec marks as its own decision R10 (D2, D10,
D13). -/
def Obligations.ConfiguredWaveformsFit : Prop :=
  ∀ (c : Config) (t : Cartridge),
    waveLength (c.template t).length ≤ c.obCap ∧ 112 ≤ c.obCap ∧ c.obCap ≤ 65535

/-- GEN completes in every state: the cells of `OB` are those of the closed form, the gap cells and the cells beyond the
waveform are as before, `WLEN` is the length, and nothing else changes (R170, R174, R184, R189). That GEN completes also
where `NB` or `TSEL` holds no value, where the spec refuses it, is the model's choice (notes/assumptions/6.md). Of these
the spec marks as derived R189. -/
def Obligations.GenEncodesTheNozzleBuffer : Prop :=
  ∀ s : State, ∃ (ob' : Memory) (wlen' : Word), exec .gen s = .next { s with ob := ob', wlen := wlen' } ∧
    wlen'.toNat = waveLength (selectedTemplate s).length ∧
    ∀ n, ob'.read n =
      (match closedCell (selectedTemplate s) s.nb n with | some w => some w | none => s.ob.read n)

/-- An all-zero row writes zero at every word position of every stage and skips the gap positions, so that on a
pre-zeroed buffer the whole waveform is zero; the length is the same as for any row (R176). That GEN completes also
where `NB` or `TSEL` holds no value, where the spec refuses it, is the model's choice (notes/assumptions/6.md). -/
def Obligations.EmptyRowEncodesToZeros : Prop :=
  ∀ s : State, (∀ a, a < 42 → cell s.nb a = 0#8) →
    ∃ (ob' : Memory) (wlen' : Word), exec .gen s = .next { s with ob := ob', wlen := wlen' } ∧
      wlen'.toNat = waveLength (selectedTemplate s).length ∧
      (∀ j i, j < 14 → i < (selectedTemplate s).length →
        ob'.read (j * ((selectedTemplate s).length + 8) + i) = some 0#16) ∧
      (∀ j k, j < 14 → k < 8 →
        ob'.read (j * ((selectedTemplate s).length + 8) + (selectedTemplate s).length + k) =
          s.ob.read (j * ((selectedTemplate s).length + 8) + (selectedTemplate s).length + k)) ∧
      ((∀ n, n < waveLength (selectedTemplate s).length → s.ob.read n = some 0#16) →
        ∀ n, n < waveLength (selectedTemplate s).length → ob'.read n = some 0#16)

/-- R184: the eight gap cells after each stage, the last among them, keep whatever they held before the encode. -/
def Obligations.GapCellsKeepWhatTheyHeld : Prop :=
  ∀ (tp : List Word) (d : Row) (ob : Memory) (j k : Nat), j < 14 → k < 8 →
    (enc tp d ob).2.read (j * (tp.length + 8) + tp.length + k) = ob.read (j * (tp.length + 8) + tp.length + k)

/-- R177: in every word of a stage F3 is the template's bit 10 unless the low nibble of the stage's combined data is zero,
and F5 the template's bit 11 unless the high nibble is; suppressed, the bit is 0. -/
def Obligations.AuxiliaryPowerLinesAreSuppressed : Prop :=
  ∀ (tp : List Word) (d : Row) (ob : Memory) (j i : Nat) (w : Word),
    j < 14 → tp[i]? = some w →
    ∃ out : Word, (enc tp d ob).2.read (j * (tp.length + 8) + i) = some out ∧
      out.getLsbD 10 =
        (w.getLsbD 10 && decide ((cell d j ||| cell d (14 + j) ||| cell d (28 + j)) &&& 0x0F#8 ≠ 0#8)) ∧
      out.getLsbD 11 =
        (w.getLsbD 11 && decide ((cell d j ||| cell d (14 + j) ||| cell d (28 + j)) &&& 0xF0#8 ≠ 0#8))

/-- In a non-empty row, on a data-enabled word a line is 1 exactly when the bit of the current selector is absent from
its cell, and on every other word the three data bits are 0 (R181). The current selector is given in its closed form
(R189), which rests on how it advances (R178), on the toggle state of 0 at each stage's start (R185) and on its growing
without bound (R179). Of these the spec marks as its own decision R185 (D7), R179 (D8) and as derived R189. -/
def Obligations.DataLinesAreActiveLow : Prop :=
  ∀ (tp : List Word) (d : Row) (ob : Memory) (j i : Nat) (w : Word),
    rowEmpty d = false → j < 14 → tp[i]? = some w →
    ∃ out : Word, (enc tp d ob).2.read (j * (tp.length + 8) + i) = some out ∧
      out.getLsbD 0 = (decide (w.extractLsb' 0 2 ≠ 0#2) && decide ((cell d j).toNat &&& selAt tp i = 0)) ∧
      out.getLsbD 1 = (decide (w.extractLsb' 0 2 ≠ 0#2) && decide ((cell d (14 + j)).toNat &&& selAt tp i = 0)) ∧
      out.getLsbD 2 = (decide (w.extractLsb' 0 2 ≠ 0#2) && decide ((cell d (28 + j)).toNat &&& selAt tp i = 0))

/-- R182: in a non-empty row CSYNC is the template word's bit 14 in stage 13 and its bit 15 in stages 0 to 12, on every
word, data-enabled or not. -/
def Obligations.SyncFollowsTheSelectBit : Prop :=
  ∀ (tp : List Word) (d : Row) (ob : Memory) (j i : Nat) (w : Word),
    rowEmpty d = false → j < 14 → tp[i]? = some w →
    ∃ out : Word, (enc tp d ob).2.read (j * (tp.length + 8) + i) = some out ∧
      out.getLsbD 3 = (if j = 13 then w.getLsbD 14 else w.getLsbD 15)

/-- In a non-empty row bits 15:4 of the template word, but for F3 and F5, reach the output word unchanged (R180, R183).
Of these the spec marks as its own decision R180 (D9). -/
def Obligations.StrobeAndClockBitsPassThrough : Prop :=
  ∀ (tp : List Word) (d : Row) (ob : Memory) (j i : Nat) (w : Word),
    rowEmpty d = false → j < 14 → tp[i]? = some w →
    ∃ out : Word, (enc tp d ob).2.read (j * (tp.length + 8) + i) = some out ∧
      ∀ b, 4 ≤ b → b < 16 → b ≠ 10 → b ≠ 11 → out.getLsbD b = w.getLsbD b

/-- R192: on a data-enabled word the selector is at least 1. Of these the spec marks as derived R192. -/
def Obligations.SelectorIsSetOnEveryDataWord : Prop :=
  ∀ (tp : List Word) (i : Nat) (w : Word), tp[i]? = some w → w.extractLsb' 0 2 ≠ 0#2 → 1 ≤ selAt tp i

/-- R193: the words of a stage depend only on the template, on whether the row is empty, on whether the stage is the
last, and on the stage's three cells. Of these the spec marks as derived R193. -/
def Obligations.StagesAreIndependent : Prop :=
  ∀ (tp : List Word) (d d' : Row) (ob ob' : Memory) (j j' i : Nat),
    rowEmpty d = rowEmpty d' → j < 14 → j' < 14 → (j = 13 ↔ j' = 13) → i < tp.length →
    cell d j = cell d' j' → cell d (14 + j) = cell d' (14 + j') → cell d (28 + j) = cell d' (28 + j') →
    (enc tp d ob).2.read (j * (tp.length + 8) + i) = (enc tp d' ob').2.read (j' * (tp.length + 8) + i)

/-- With one template, an encode over the buffer another encode left is the encode over the buffer before it, so one
OBCLR per job is enough (R286); and a second GEN with nothing changed between writes the same values again (R170). That
GEN completes also where `NB` or `TSEL` holds no value, where the spec refuses it, is the model's choice
(notes/assumptions/6.md). Of these the spec marks as derived R286. -/
def Obligations.OneObclrPerJobIsEnough : Prop :=
  (∀ (tp : List Word) (d d' : Row) (ob : Memory), ob.wf = true →
    (enc tp d' (enc tp d ob).2).2 = (enc tp d' ob).2) ∧
  (∀ s t : State, s.ob.wf = true → exec .gen s = .next t → exec .gen t = .next t)

/-! ### The firing queue -/

/-- SEND on a free slot: the slot takes the row, `QF` is set, `NB` holds no value from then on, and nothing else
changes; what the cells of `NB` hold is left open (R212, R213). `draws` is the model's own count of free bytes
(notes/assumptions/4.md). That SEND completes also where `NB` holds no value, where the spec refuses it, is the model's
choice (notes/assumptions/6.md). Of these the spec marks as its own decision R212 (D16), R213 (D16). -/
def Obligations.SendHandsTheRowOff : Prop :=
  ∀ s : State, s.qf = false → ∃ nb' : Row,
    exec .send s = .next { s with qs := s.nb, qf := true, nb := nb', nbHeld := false, draws := s.draws + 42 }

/-- While `QF = 1` SEND changes nothing, and `cmd_ready` is 0 exactly while a SEND is presented and `QF = 1` (R111,
R214; notes/assumptions/8.md). Of these the spec marks as its own decision R111 (D12), R214 (D19). -/
def Obligations.SendStallsWhileTheSlotIsFull : Prop :=
  (∀ s : State, s.qf = true → exec .send s = .next s) ∧
  (∀ (s : State) (w : Command), cmdReady w s = false ↔ (decode w = .ok .send ∧ s.qf = true))

/-- R216: TRYRECV takes the pending row and clears the flag, or reports that there is none and changes nothing; a second
TRYRECV with no SEND between reports absent. -/
def Obligations.TryRecvTakesThePendingRow : Prop :=
  ∀ s : State,
    (s.qf = true → tryRecv s = (some s.qs, { s with rb := s.qs, qf := false })) ∧
    (s.qf = false → tryRecv s = (none, s)) ∧ (tryRecv (tryRecv s).2).1 = none

/-- Over any sequence of operations that runs, completed SENDs and successful takes differ by what `QF` says (R219). A
stalled SEND is not counted (notes/assumptions/8.md); a SEND of an `NB`, or a take with a `TSEL`, that holds no value is
counted, for the model runs it (notes/assumptions/6.md). Of these the spec marks as derived R219. -/
def Obligations.SendsLessTakesIsTheFlag : Prop :=
  ∀ (is : List Instr) (s t : State), execAll is s = .next t →
    sendsCompleted is s + (if s.qf then 1 else 0) = rowsTaken is s + (if t.qf then 1 else 0)

/-- The row a FILL encodes is exactly what `NB` held at the SEND that filled the slot, whatever the producer does in
between (R73, R213). That a FILL with a row completes also where `TSEL` holds no value, where the spec refuses it, is
the model's choice (notes/assumptions/6.md). The same choice has the SEND complete where `NB` holds no value. Of these
the spec marks as its own decision R213 (D16) and as derived R73. -/
def Obligations.TheRowEncodedIsTheRowSent : Prop :=
  ∀ (s s1 t : State) (is : List Instr) (len : Nat),
    s.qf = false → s.drainer = .idle → exec .send s = .next s1 → (∀ i ∈ is, i.port = .producer) →
    execAll is s1 = .next t → waveLength (selectedTemplate t).length ≤ len → len ≤ t.cfg.obCap →
    ∃ u, exec (.fill len) t = .next u ∧ u.rb = s.nb ∧ u.qf = false ∧
      ∀ n, n < len → u.ob.read n = some ((closedCell (selectedTemplate t) s.nb n).getD 0#16)

/-! ### The drainer and the word pusher -/

/-- A FILL that finds no row leaves the idle pattern, `len` words of zero, hands it to the peripheral, and changes
nothing else: no cell from `len` on, no register (R230, R232, R234). Of these the spec marks as its own decision R232
(D14). -/
def Obligations.FillWithoutARowLeavesTheIdlePattern : Prop :=
  ∀ (s : State) (len : Nat), s.drainer = .idle → s.qf = false → len ≤ s.cfg.obCap →
    ∃ ob' : Memory, exec (.fill len) s =
        .next { s with ob := ob', events := s.events ++ [.fillDone (List.replicate len 0#16)] } ∧
      (∀ n, n < len → ob'.read n = some 0#16) ∧ (∀ n, len ≤ n → ob'.read n = s.ob.read n)

/-- A FILL that finds a row takes it, leaves the encoding of it with every other cell below `len` zero, hands that
buffer to the peripheral, and changes nothing else; `WLEN` is not written (R230, R232, R233, R236). That a FILL with a
row completes also where `TSEL` holds no value, where the spec refuses it, is the model's choice
(notes/assumptions/6.md). Of these the spec marks as its own decision R232 (D14), R233 (D14), R236 (D13). -/
def Obligations.FillWithARowEncodesIt : Prop :=
  ∀ (s : State) (len : Nat), s.drainer = .idle → s.qf = true →
    waveLength (selectedTemplate s).length ≤ len → len ≤ s.cfg.obCap →
    ∃ ob' : Memory, exec (.fill len) s =
        .next { s with
          ob := ob', rb := s.qs, qf := false,
          events := s.events ++
            [.fillDone ((List.range len).map fun n => (closedCell (selectedTemplate s) s.qs n).getD 0#16)] } ∧
      (∀ n, n < len → ob'.read n = some ((closedCell (selectedTemplate s) s.qs n).getD 0#16)) ∧
      (∀ n, len ≤ n → ob'.read n = s.ob.read n)

/-- The lengths FILL refuses: above `OB_CAP`, and below the waveform with a row pending; with no row any length up to
`OB_CAP` is accepted (R233; notes/assumptions/14.md). That the second refusal is named so also where `TSEL` holds no
value, where the spec gives another reason, is the model's choice (notes/assumptions/6.md), and so is the refusal of a
request during a fill, for which the spec defines nothing (notes/assumptions/11.md). Of these the spec marks as its own
decision R233 (D14). -/
def Obligations.FillRefusesTheLengthsOutsideItsContract : Prop :=
  (∀ (s : State) (len : Nat), s.drainer = .idle → s.cfg.obCap < len →
    exec (.fill len) s = .refused .lenOverCapacity) ∧
  (∀ (s : State) (len : Nat), s.drainer = .idle → s.qf = true → len ≤ s.cfg.obCap →
    len < waveLength (selectedTemplate s).length → exec (.fill len) s = .refused .lenTooSmall) ∧
  (∀ (s : State) (len : Nat), s.drainer = .idle → s.qf = false → len ≤ s.cfg.obCap →
    ∃ t, exec (.fill len) s = .next t) ∧
  (∀ (s : State) (len : Nat), s.drainer = .filling → exec (.fill len) s = .refused .fillOverrun)

/-- A FILL that takes an all-zero row and a FILL that finds none leave the same buffer and the same state but for the
row register of the consumer, which only the take writes (R211, R234). That a FILL with a row completes also where
`TSEL` holds no value, where the spec refuses it, is the model's choice (notes/assumptions/6.md). -/
def Obligations.EmptyRowFillsLikeTheIdlePattern : Prop :=
  ∀ (s : State) (len : Nat), s.drainer = .idle → s.qf = true → (∀ a, a < 42 → cell s.qs a = 0#8) →
    waveLength (selectedTemplate s).length ≤ len → len ≤ s.cfg.obCap →
    ∃ t, exec (.fill len) { s with qf := false } = .next t ∧ exec (.fill len) s = .next { t with rb := s.qs }

/-- R281: straight after reset every FILL finds no row and hands over the idle pattern of the requested length, whatever
the templates are. Of these the spec marks as derived R281. -/
def Obligations.FillsAfterResetAreIdle : Prop :=
  ∀ lens : List Nat, (∀ n ∈ lens, n ≤ State.reset.cfg.obCap) →
    ∃ t, execAll (lens.map .fill) State.reset = .next t ∧ t.qf = false ∧
      t.events = lens.map fun n => .fillDone (List.replicate n 0#16)

/-- EMIT pushes `WLEN` words in ascending order, each the value of its cell where the cell holds one, and changes
nothing else (R240). What a cell that holds no value puts on the bus is left open (notes/assumptions/5.md). That EMIT
completes over such a cell, where the spec refuses it, is the model's choice (notes/assumptions/6.md). Of these the spec
marks as its own decision R240 (D24). -/
def Obligations.EmitPushesTheWrittenLength : Prop :=
  ∀ s : State, s.wlen.toNat ≤ s.cfg.obCap → ∃ ws : List Word,
    exec .emit s = .next { s with events := s.events ++ ws.map .writeWord } ∧ ws.length = s.wlen.toNat ∧
    ∀ (n : Nat) (v : Word), n < s.wlen.toNat → s.ob.read n = some v → ws[n]? = some v

/-- EMIT stops where `WLEN` is above `OB_CAP`, which no state of a run is (R77; notes/assumptions/12.md). -/
def Obligations.EmitStopsBeyondTheOutputBuffer : Prop :=
  ∀ s : State, s.cfg.obCap < s.wlen.toNat → exec .emit s = .fault .obCellAbsent

/-- The synchronous row, whole: after OBCLR, GEN and EMIT the words on the bus are the encoding of `NB` with the gaps
zero, a function of the row and the template and of nothing else (R127, R240, R242, R286). That GEN completes also where
`NB` or `TSEL` holds no value, where the spec refuses it, is the model's choice (notes/assumptions/6.md). Of these the
spec marks as its own decision R240 (D24) and as derived R286. -/
def Obligations.SynchronousRowReachesTheBus : Prop :=
  ∀ s : State, ∃ t, execAll [.obclr, .gen, .emit] s = .next t ∧ t.nb = s.nb ∧
    t.events = s.events ++
      (List.range (waveLength (selectedTemplate s).length)).map
        fun n => .writeWord ((closedCell (selectedTemplate s) s.nb n).getD 0#16)

/-! ### The whole machine -/

/-- Every step keeps the invariant: `OB` stays canonical and inside its capacity, `WLEN` is the length of a waveform,
and the drainer is IDLE between operations (R33, R38, R70, R77). Of these the spec marks as its own decision R33 (D13),
R38 (D17, D20). -/
def Obligations.StepKeepsTheInvariant : Prop :=
  ∀ s t : State, Inv s → step s = .next t → Inv t

/-- The state after reset meets the invariant. -/
def Obligations.ResetMeetsTheInvariant : Prop := Inv State.reset

/-- What reset leaves: `QF = 0`, `WLEN = 0`, drainer IDLE, and nothing else holds a value the spec defines (R45, R280).
Of these the spec marks as its own decision R45 (D18), R280 (D18). -/
def Obligations.ResetLeavesTheQueueFree : Prop :=
  State.reset.qf = false ∧ State.reset.wlen = 0#16 ∧ State.reset.drainer = .idle ∧
  State.reset.nbHeld = false ∧ State.reset.tselHeld = false ∧ ∀ n, State.reset.ob.read n = none

/-- No step writes the template memory or the capacity (R31, R41, R76). Of these the spec marks as its own decision R76
(D21). -/
def Obligations.NoStepWritesTheConfiguration : Prop :=
  ∀ s t : State, step s = .next t → t.cfg = s.cfg

/-- Each register and memory is written by no operation but those R60, R22, R25, R28 and R33 name; and SEND is a writer
of `NB` too, not by R60 or R22 but because a SEND that completes leaves `NB` without a value (R212, R213), for which the
model puts free bytes there (notes/assumptions/4.md). Of these the spec marks as its own decision R28 (D11), R33 (D13),
R212 (D16), R213 (D16). -/
def Obligations.OnlyTheNamedOperationsWrite : Prop :=
  ∀ (i : Instr) (s t : State), exec i s = .next t →
    (t.nb ≠ s.nb → i = .nbclr ∨ (∃ p c, i = .setc p c) ∨ (∃ p r, i = .setb p r) ∨
      (i = .send ∧ s.qf = false ∧ t.nbHeld = false)) ∧
    (t.qf ≠ s.qf → i = .send ∨ ∃ n, i = .fill n) ∧ (t.qs ≠ s.qs → i = .send) ∧
    (t.rb ≠ s.rb → ∃ n, i = .fill n) ∧ (t.tsel ≠ s.tsel → ∃ c, i = .tsel c) ∧ (t.wlen ≠ s.wlen → i = .gen) ∧
    (t.ob ≠ s.ob → i = .obclr ∨ i = .gen ∨ ∃ n, i = .fill n) ∧
    (t.events ≠ s.events → i = .emit ∨ ∃ n, i = .fill n) ∧
    t.cmds = s.cmds ∧ t.reqs = s.reqs ∧ t.sched = s.sched

/-- Where the spec does not refuse an operation, its result does not depend on any value the spec leaves open: two
states that agree on what holds a value are taken to two states that do (R16, R24, R45; notes/assumptions/6.md). Of
these the spec marks as its own decision R24 (D16, D18), R45 (D18). -/
def Obligations.DefinedResultsDoNotDependOnFreeValues : Prop :=
  ∀ (i : Instr) (s t s' : State), Agree s t → specRefusal i s = none → exec i s = .next s' →
    ∃ t', exec i t = .next t' ∧ Agree s' t'

/-- The three outcomes of R16: an operation stalls exactly when it is a SEND on a full slot, is refused exactly for the
reasons of the spec's `require` lines, and in every other case completes, with the state that the machine answers (R250,
R253). That the machine answers the unchanged state for a stalled SEND is the model's choice (notes/assumptions/8.md).
The statement is about the states of a run, between operations. Of these the spec marks as derived R253. -/
def Obligations.EveryDefinedOperationCompletes : Prop :=
  ∀ (i : Instr) (s : State), Inv s →
    (specOutcome i s = .stalls ↔ i = .send ∧ s.qf = true) ∧ (specOutcome i s = .stalls → exec i s = .next s) ∧
    (∀ r, specOutcome i s = .refused r ↔ specRefusal i s = some r) ∧
    (specRefusal i s = none → ¬(i = .send ∧ s.qf = true) →
      ∃ t, exec i s = .next t ∧ specOutcome i s = .completes t)

/-- Building the next row and filling from the queue do not disturb each other: NBCLR, SETC and SETB give the same state
before a FILL as after it (R22, R71, R256, R260). That a FILL with a row completes also where `TSEL` holds no value,
where the spec refuses it, is the model's choice (notes/assumptions/6.md). The same choice has SETC and SETB run where
`NB` holds no value. Of these the spec marks as its own decision R260 (D17) and as derived R256. -/
def Obligations.RowBuildingCommutesWithFill : Prop :=
  ∀ (i : Instr) (s u : State) (len : Nat),
    (i = .nbclr ∨ (∃ p c, i = .setc p c) ∨ ∃ p r, i = .setb p r) → exec (.fill len) s = .next u →
    ∃ v w, exec i s = .next v ∧ exec (.fill len) v = .next w ∧ exec i u = .next w

/-- The orders of a SEND and a FILL requested at the same moment (R218): with `QF = 0`, SEND first delivers the new row
to this FILL and FILL first idles and leaves the row pending; with `QF = 1`, SEND waits, the FILL takes the old row, and
SEND then completes with the new one. Whatever the schedule, once both commands have left their ports the state is that
of one of these two orders, with `QF = 1` that of the second, and of no third. That a waiting SEND is a step in which
nothing happens is the model's choice (notes/assumptions/8.md), and so is that the FILL completes also where `TSEL`, and
the SEND also where `NB`, holds no value, where the spec refuses them (notes/assumptions/6.md). Of these the spec marks
as its own decision R218 (D17). -/
def Obligations.CoincidentSendAndFill : Prop :=
  ∀ (s : State) (len : Nat), s.drainer = .idle → waveLength (selectedTemplate s).length ≤ len →
    len ≤ s.cfg.obCap →
    (s.qf = false →
      (∃ t, execAll [.send, .fill len] s = .next t ∧ t.rb = s.nb ∧ t.qf = false) ∧
      (∃ t, execAll [.fill len, .send] s = .next t ∧ t.rb = s.rb ∧ t.qs = s.nb ∧ t.qf = true ∧
        ∀ n, n < len → t.ob.read n = some 0#16)) ∧
    (s.qf = true →
      (∃ t, execAll [.send, .fill len, .send] s = .next t ∧ t.rb = s.qs ∧ t.qs = s.nb ∧ t.qf = true) ∧
      (∃ t, execAll [.fill len, .send] s = .next t ∧ t.rb = s.qs ∧ t.qs = s.nb ∧ t.qf = true)) ∧
    ∀ (w f : Command) (t : State), s.cmds = [w] → decode w = .ok .send → s.reqs = [f] → decode f = .ok (.fill len) →
      Host.Core.run Sys2Proof.core s.sched.length s = .next t → t.cmds = [] → t.reqs = [] →
      execAll [.fill len, .send] { s with cmds := [], reqs := [], sched := [] } = .next t ∨
      (s.qf = false ∧ execAll [.send, .fill len] { s with cmds := [], reqs := [], sched := [] } = .next t)
end

