-- ==== Sys2Proof/Laws/Memory.lean ====
section
/-! SUPPORT. The laws of the output buffer memory: reads after writes, and that every operation keeps the canonical form
and the capacity (spec/20_memory.md R70, R77). -/

namespace Sys2Proof.Machine

@[simp] theorem Memory.read_nil (n : Nat) : Memory.read [] n = none := rfl

/-- Every listed index lies above `n`. -/
def Memory.above (n : Nat) (m : Memory) : Prop := ∀ c ∈ m, n < c.1

theorem Memory.wf_cons (c : Nat × Word) (m : Memory) :
    Memory.wf (c :: m) = true ↔ Memory.above c.1 m ∧ Memory.wf m = true := by
  induction m generalizing c with
  | nil => simp [Memory.wf, Memory.above]
  | cons b rest ih =>
    simp only [Memory.wf, Bool.and_eq_true, decide_eq_true_eq, ih b, Memory.above, List.forall_mem_cons]
    constructor
    · rintro ⟨h1, h2, h3⟩
      exact ⟨⟨h1, fun x hx => lt_trans h1 (h2 x hx)⟩, h2, h3⟩
    · rintro ⟨⟨h1, _⟩, h2, h3⟩
      exact ⟨h1, h2, h3⟩

/-- A cell below every listed index holds no value. -/
theorem Memory.read_of_above {m : Memory} {n k : Nat} (h : Memory.above n m) (hk : k ≤ n) : m.read k = none := by
  induction m with
  | nil => rfl
  | cons c rest ih =>
    have h1 : n < c.1 := h c (by simp)
    have h2 : Memory.above n rest := fun x hx => h x (by simp [hx])
    simp only [Memory.read]
    rw [if_neg (by omega)]
    exact ih h2

/-- A read after a write: the value written at the same index, what was there at any other. -/
theorem Memory.read_write (m : Memory) (n k : Nat) (v : Word) :
    (m.write n v).read k = if n = k then some v else m.read k := by
  induction m with
  | nil => simp [Memory.write, Memory.read]
  | cons c rest ih =>
    simp only [Memory.write]
    split
    · simp only [Memory.read]
    · split
      · rename_i h
        simp only [Memory.read, h]
        split <;> rfl
      · rename_i h1 h2
        simp only [Memory.read, ih]
        split
        · rw [if_neg (by omega)]
        · rfl

theorem Memory.above_write {m : Memory} {b n : Nat} {v : Word} (hm : Memory.above b m) (hn : b < n) :
    Memory.above b (m.write n v) := by
  induction m with
  | nil => simpa [Memory.write, Memory.above] using hn
  | cons c rest ih =>
    have hc : b < c.1 := hm c (by simp)
    have hr : Memory.above b rest := fun x hx => hm x (by simp [hx])
    simp only [Memory.write]
    split
    · intro x hx
      simp only [List.mem_cons] at hx
      rcases hx with rfl | rfl | hx
      · exact hn
      · exact hc
      · exact hr x hx
    · split
      · intro x hx
        simp only [List.mem_cons] at hx
        rcases hx with rfl | hx
        · exact hn
        · exact hr x hx
      · intro x hx
        simp only [List.mem_cons] at hx
        rcases hx with rfl | hx
        · exact hc
        · exact ih hr x hx

/-- A write keeps the canonical form. -/
theorem Memory.wf_write {m : Memory} (n : Nat) (v : Word) (hm : m.wf = true) : (m.write n v).wf = true := by
  induction m with
  | nil => rfl
  | cons c rest ih =>
    obtain ⟨ha, hr⟩ := (Memory.wf_cons c rest).mp hm
    simp only [Memory.write]
    split
    · rename_i h
      rw [Memory.wf_cons]
      refine ⟨?_, hm⟩
      intro x hx
      simp only [List.mem_cons] at hx
      rcases hx with rfl | hx
      · exact h
      · exact lt_trans h (ha x hx)
    · split
      · rename_i h
        rw [Memory.wf_cons]
        exact ⟨by simpa [h] using ha, hr⟩
      · rename_i h1 h2
        rw [Memory.wf_cons]
        exact ⟨Memory.above_write ha (by omega), ih hr⟩

theorem Memory.below_iff (m : Memory) (n : Nat) : m.below n = true ↔ ∀ c ∈ m, c.1 < n := by
  simp [Memory.below]

/-- A write inside the capacity keeps the memory inside it. -/
theorem Memory.below_write {m : Memory} {cap n : Nat} {v : Word} (hm : m.below cap = true) (hn : n < cap) :
    (m.write n v).below cap = true := by
  rw [Memory.below_iff] at hm ⊢
  induction m with
  | nil => simpa [Memory.write] using hn
  | cons c rest ih =>
    have hc : c.1 < cap := hm c (by simp)
    have hr : ∀ x ∈ rest, x.1 < cap := fun x hx => hm x (by simp [hx])
    simp only [Memory.write]
    split
    · intro x hx
      simp only [List.mem_cons] at hx
      rcases hx with rfl | rfl | hx
      · exact hn
      · exact hc
      · exact hr x hx
    · split
      · intro x hx
        simp only [List.mem_cons] at hx
        rcases hx with rfl | hx
        · exact hn
        · exact hr x hx
      · intro x hx
        simp only [List.mem_cons] at hx
        rcases hx with rfl | hx
        · exact hc
        · exact ih hr x hx

/-- Two canonical memories that read alike are the same list. -/
theorem Memory.ext_of_read {m m' : Memory} (hm : m.wf = true) (hm' : m'.wf = true)
    (h : ∀ n, m.read n = m'.read n) : m = m' := by
  induction m generalizing m' with
  | nil =>
    cases m' with
    | nil => rfl
    | cons c rest => simpa [Memory.read] using h c.1
  | cons c rest ih =>
    cases m' with
    | nil => simpa [Memory.read] using h c.1
    | cons c' rest' =>
      obtain ⟨ha, hr⟩ := (Memory.wf_cons c rest).mp hm
      obtain ⟨ha', hr'⟩ := (Memory.wf_cons c' rest').mp hm'
      have hidx : c.1 = c'.1 := by
        rcases lt_trichotomy c.1 c'.1 with hlt | heq | hgt
        · have := h c.1
          rw [Memory.read, if_pos rfl, Memory.read, if_neg (by omega),
            Memory.read_of_above ha' (by omega)] at this
          cases this
        · exact heq
        · have := h c'.1
          rw [Memory.read, if_neg (by omega), Memory.read_of_above ha (by omega), Memory.read, if_pos rfl] at this
          cases this
      have hval : c.2 = c'.2 := by
        have := h c.1
        rw [Memory.read, if_pos rfl, Memory.read, if_pos hidx.symm] at this
        exact Option.some.inj this
      have hrest : rest = rest' := by
        apply ih hr hr'
        intro n
        by_cases hn : c.1 = n
        · rw [Memory.read_of_above ha (by omega), Memory.read_of_above ha' (by omega)]
        · have := h n
          rwa [Memory.read, if_neg hn, Memory.read, if_neg (by omega)] at this
      rw [hrest, Prod.ext hidx hval]

/-! ### Zeroing a range -/

theorem Memory.read_append (m m' : Memory) (n : Nat) : Memory.read (m ++ m') n = (m.read n).or (m'.read n) := by
  induction m with
  | nil => simp
  | cons c rest ih =>
    simp only [List.cons_append, Memory.read]
    split
    · simp
    · exact ih

theorem Memory.read_zeros (l : List Nat) (n : Nat) :
    Memory.read (l.map fun k => (k, 0#16)) n = if n ∈ l then some 0#16 else none := by
  induction l with
  | nil => simp
  | cons k rest ih =>
    simp only [List.map_cons, Memory.read, ih, List.mem_cons]
    by_cases h : k = n
    · simp [h]
    · have : ¬ n = k := fun e => h e.symm
      simp [h, this]

theorem Memory.read_filter_ge (m : Memory) (len n : Nat) :
    Memory.read (m.filter fun c => decide (len ≤ c.1)) n = if len ≤ n then m.read n else none := by
  induction m with
  | nil => simp
  | cons c rest ih =>
    by_cases h : len ≤ c.1
    · rw [List.filter_cons_of_pos (by simpa using h)]
      simp only [Memory.read, ih]
      split
      · rename_i e
        simp [← e, h]
      · rfl
    · rw [List.filter_cons_of_neg (by simpa using h), ih]
      simp only [Memory.read]
      split
      · rw [if_neg (by omega)]
      · rfl

/-- The cells below `len` read zero, the others as before. -/
theorem Memory.read_zeroBelow (m : Memory) (len n : Nat) :
    (m.zeroBelow len).read n = if n < len then some 0#16 else m.read n := by
  simp only [Memory.zeroBelow, Memory.read_append, Memory.read_zeros, Memory.read_filter_ge, List.mem_range]
  by_cases h : n < len
  · simp [h]
  · simp [h, Nat.le_of_not_lt h]

theorem Memory.wf_iff_pairwise (m : Memory) : m.wf = true ↔ m.Pairwise fun a b => a.1 < b.1 := by
  induction m with
  | nil => simp [Memory.wf]
  | cons c rest ih => rw [Memory.wf_cons, List.pairwise_cons, ih]; rfl

/-- Zeroing a range keeps the canonical form. -/
theorem Memory.wf_zeroBelow {m : Memory} (len : Nat) (hm : m.wf = true) : (m.zeroBelow len).wf = true := by
  rw [Memory.wf_iff_pairwise] at hm ⊢
  rw [Memory.zeroBelow, List.pairwise_append]
  refine ⟨?_, hm.filter _, ?_⟩
  · rw [List.pairwise_map]
    exact List.pairwise_lt_range
  · intro a ha b hb
    simp only [List.mem_map, List.mem_range] at ha
    obtain ⟨k, hk, rfl⟩ := ha
    simp only [List.mem_filter, decide_eq_true_eq] at hb
    exact lt_of_lt_of_le hk hb.2

/-- Zeroing a range inside the capacity keeps the memory inside it. -/
theorem Memory.below_zeroBelow {m : Memory} {cap len : Nat} (hm : m.below cap = true) (hl : len ≤ cap) :
    (m.zeroBelow len).below cap = true := by
  rw [Memory.below_iff] at hm ⊢
  intro c hc
  simp only [Memory.zeroBelow, List.mem_append, List.mem_map, List.mem_range, List.mem_filter] at hc
  rcases hc with ⟨k, hk, rfl⟩ | ⟨hc, _⟩
  · exact lt_of_lt_of_le hk hl
  · exact hm c hc

/-- `zeroBelow` is the loop of R171 and R232: `for n in 0..len-1: MemWrite(OB, n, 0x0000)`. -/
theorem Memory.zeroBelow_eq_loop {m : Memory} (len : Nat) (hm : m.wf = true) :
    m.zeroBelow len = (List.range len).foldl (fun m n => m.write n 0#16) m := by
  induction len with
  | zero => simp [Memory.zeroBelow]
  | succ k ih =>
    rw [List.range_succ, List.foldl_append, List.foldl_cons, List.foldl_nil, ← ih]
    apply Memory.ext_of_read (Memory.wf_zeroBelow _ hm) (Memory.wf_write _ _ (Memory.wf_zeroBelow _ hm))
    intro n
    simp only [Memory.read_write, Memory.read_zeroBelow]
    by_cases h : k = n
    · simp [h]
    · simp only [h, if_false]
      by_cases h2 : n < k
      · simp [h2, Nat.lt_succ_of_lt h2]
      · rw [if_neg (by omega), if_neg h2]

/-! ### The memory at reset, and the bus -/

theorem reset_ob_wf : State.reset.ob.wf = true := rfl

@[simp] theorem busWords_length (s : State) (len : Nat) : (busWords s len).length = len := by simp [busWords]

/-- A cell that holds a value puts that value on the bus. -/
theorem busWord_of_read {s : State} {n : Nat} {v : Word} (h : s.ob.read n = some v) : busWord s n = v := by
  simp [busWord, h]

/-- The buffer of a state whose first `len` cells hold `f n`. -/
theorem busWords_eq {s : State} {len : Nat} {f : Nat → Word} (h : ∀ n, n < len → s.ob.read n = some (f n)) :
    busWords s len = (List.range len).map f := by
  unfold busWords
  apply List.map_congr_left
  intro n hn
  exact busWord_of_read (h n (List.mem_range.mp hn))

end Sys2Proof.Machine
end

