-- ==== Sys2Proof/Laws/Row.lean ====
section
/-! SUPPORT. The laws of the nozzle buffers: what one read gives after one write (spec/20_memory.md R67). -/

namespace Sys2Proof.Machine

theorem cell_eq_getElem (d : Row) (a : Nat) (h : a < 42) : cell d a = d[a] := by
  simp [cell, Vector.getD, h]

@[simp] theorem cell_zeroRow (a : Nat) : cell zeroRow a = 0#8 := by
  by_cases h : a < 42 <;> simp [cell, zeroRow, Vector.getD, h]

/-- A row made from a function holds its values. -/
theorem cell_rowOf (f : Nat → Byte) (a : Nat) (h : a < 42) : cell (rowOf f) a = f a := by
  rw [cell_eq_getElem _ a h]
  simp [rowOf]

/-- Cell `a` after a SEND is the free byte `k + a` (R213). -/
theorem cell_staleRow (k a : Nat) (h : a < 42) : cell (staleRow k) a = Config.staleByte (k + a) := by
  unfold staleRow
  exact cell_rowOf _ a h

/-- Two rows with equal cells are equal. -/
theorem row_ext {d e : Row} (h : ∀ a, a < 42 → cell d a = cell e a) : d = e := by
  apply Vector.ext
  intro a ha
  rw [← cell_eq_getElem d a ha, ← cell_eq_getElem e a ha]
  exact h a ha

/-- After an OR into cell `a`, cell `a` has the mask's bits as well and every other cell is as before. -/
theorem cell_orCell (d : Row) (a b : Nat) (m : Byte) (hb : b < 42) :
    cell (orCell d a m) b = if a = b then cell d b ||| m else cell d b := by
  rw [cell_eq_getElem _ b hb]
  by_cases h : a = b
  · subst h
    simp [orCell]
  · simp [orCell, h, cell_eq_getElem _ b hb]

/-- ORing into two cells commutes. -/
theorem orCell_comm (d : Row) (a b : Nat) (m n : Byte) : orCell (orCell d a m) b n = orCell (orCell d b n) a m := by
  apply row_ext
  intro c hc
  simp only [cell_orCell _ _ _ _ hc]
  split <;> split <;> simp [BitVec.or_assoc, BitVec.or_comm m n]

/-- ORing the same mask into the same cell twice is the same as once. -/
theorem orCell_idem (d : Row) (a : Nat) (m : Byte) : orCell (orCell d a m) a m = orCell d a m := by
  apply row_ext
  intro c hc
  simp only [cell_orCell _ _ _ _ hc]
  split <;> simp [BitVec.or_assoc]

/-- A zero mask changes nothing. -/
theorem orCell_zero (d : Row) (a : Nat) : orCell d a 0#8 = d := by
  apply row_ext
  intro c hc
  simp [cell_orCell _ _ _ _ hc]

/-- `rowEmpty` says that every cell is zero. -/
theorem rowEmpty_iff (d : Row) : rowEmpty d = true ↔ ∀ a, a < 42 → cell d a = 0#8 := by
  constructor
  · intro h a ha
    rw [cell_eq_getElem d a ha]
    have := List.all_eq_true.mp h d[a] (by simp)
    simpa using this
  · intro h
    apply List.all_eq_true.mpr
    intro b hb
    obtain ⟨i, hi, rfl⟩ := List.getElem_of_mem hb
    have hi' : i < 42 := by simpa using hi
    have := h i hi'
    rw [cell_eq_getElem d i hi'] at this
    simpa using this

@[simp] theorem rowEmpty_zeroRow : rowEmpty zeroRow = true := by
  rw [rowEmpty_iff]
  intro a _
  simp

end Sys2Proof.Machine
end

