-- ==== Sys2Proof/Laws/Encoder.lean ====
section
/-! SUPPORT. What the parts of ENC do: the body of the inner loop, a stage, the whole walk
(spec/42_encoder.md R175 to R188). -/

namespace Sys2Proof.Machine

/-- The body of the inner loop writes one cell, at the cursor, and advances the cursor by one (R183). -/
theorem encBody_spec (d : Row) (j : Nat) (e : EncLoop) (w : Word) :
    ∃ v : Word, (encBody d j e w).ob = e.ob.write e.cur v ∧ (encBody d j e w).cur = e.cur + 1 := by
  unfold encBody
  split
  · exact ⟨0#16, rfl, rfl⟩
  · exact ⟨_, rfl, rfl⟩

/-- A run of the inner loop keeps the canonical form, stays inside any capacity that holds its words, advances the cursor by
its length and touches no other cell. -/
theorem encWords_spec (d : Row) (j : Nat) (ws : List Word) (e : EncLoop) :
    (ws.foldl (encBody d j) e).cur = e.cur + ws.length ∧
    (e.ob.wf = true → (ws.foldl (encBody d j) e).ob.wf = true) ∧
    (∀ cap, e.ob.below cap = true → e.cur + ws.length ≤ cap → (ws.foldl (encBody d j) e).ob.below cap = true) ∧
    (∀ n, n < e.cur ∨ e.cur + ws.length ≤ n → (ws.foldl (encBody d j) e).ob.read n = e.ob.read n) := by
  induction ws generalizing e with
  | nil => exact ⟨by simp, id, fun _ h _ => h, fun _ _ => rfl⟩
  | cons w ws ih =>
    obtain ⟨v, hob, hcur⟩ := encBody_spec d j e w
    obtain ⟨h1, h2, h3, h4⟩ := ih (encBody d j e w)
    rw [hcur] at h1 h3 h4
    rw [hob] at h2 h3 h4
    simp only [List.foldl_cons, List.length_cons]
    refine ⟨by omega, fun hw => h2 (Memory.wf_write _ _ hw), ?_, ?_⟩
    · intro cap hb hc
      exact h3 cap (Memory.below_write hb (by omega)) (by omega)
    · intro n hn
      rw [h4 n (by omega), Memory.read_write, if_neg (by omega)]

/-- A stage does the same, and moves the cursor on by the gap of 8 cells (R184). -/
theorem encStage_spec (tp : List Word) (d : Row) (e : EncLoop) (j : Nat) :
    (encStage tp d e j).cur = e.cur + (tp.length + 8) ∧
    (e.ob.wf = true → (encStage tp d e j).ob.wf = true) ∧
    (∀ cap, e.ob.below cap = true → e.cur + tp.length ≤ cap → (encStage tp d e j).ob.below cap = true) ∧
    (∀ n, n < e.cur ∨ e.cur + tp.length ≤ n → (encStage tp d e j).ob.read n = e.ob.read n) := by
  obtain ⟨h1, h2, h3, h4⟩ := encWords_spec d j tp { e with sel := 0, lastTog := 0#2 }
  exact ⟨by simp only [encStage, h1]; omega, h2, h3, h4⟩

/-- The first `k` stages: the cursor, the canonical form, the capacity, and the cells from the cursor on (R62, R70). -/
theorem encStages_spec (tp : List Word) (d : Row) (e : EncLoop) (k : Nat) :
    ((List.range k).foldl (encStage tp d) e).cur = e.cur + k * (tp.length + 8) ∧
    (e.ob.wf = true → ((List.range k).foldl (encStage tp d) e).ob.wf = true) ∧
    (∀ cap, e.ob.below cap = true → e.cur + k * (tp.length + 8) ≤ cap →
      ((List.range k).foldl (encStage tp d) e).ob.below cap = true) ∧
    (∀ n, n < e.cur ∨ e.cur + k * (tp.length + 8) ≤ n →
      ((List.range k).foldl (encStage tp d) e).ob.read n = e.ob.read n) := by
  induction k with
  | zero => exact ⟨by simp, id, fun _ h _ => h, fun _ _ => rfl⟩
  | succ k ih =>
    obtain ⟨h1, h2, h3, h4⟩ := ih
    rw [List.range_succ, List.foldl_append, List.foldl_cons, List.foldl_nil]
    obtain ⟨g1, g2, g3, g4⟩ := encStage_spec tp d ((List.range k).foldl (encStage tp d) e) k
    rw [h1] at g1 g3 g4
    have hk : (k + 1) * (tp.length + 8) = k * (tp.length + 8) + (tp.length + 8) := Nat.succ_mul _ _
    refine ⟨by rw [g1, hk]; omega, fun hw => g2 (h2 hw), ?_, ?_⟩
    · intro cap hb hc
      exact g3 cap (h3 cap hb (by omega)) (by omega)
    · intro n hn
      rw [g4 n (by omega), h4 n (by omega)]

/-- ENC keeps the canonical form. -/
theorem enc_wf {tp : List Word} {d : Row} {ob : Memory} (h : ob.wf = true) : (enc tp d ob).2.wf = true :=
  (encStages_spec tp d ⟨0, 0, 0#2, ob⟩ 14).2.1 h

/-- ENC stays inside any capacity that holds its waveform (R70). -/
theorem enc_below {tp : List Word} {d : Row} {ob : Memory} {cap : Nat} (h : ob.below cap = true)
    (hc : waveLength tp.length ≤ cap) : (enc tp d ob).2.below cap = true :=
  (encStages_spec tp d ⟨0, 0, 0#2, ob⟩ 14).2.2.1 cap h (by unfold waveLength at hc; simpa using hc)

/-- Every template's waveform fits `OB` (R10, R174), in the form the meanings use. -/
theorem template_fits (c : Config) (t : Cartridge) : 14 * ((c.template t).length + 8) ≤ c.obCap := by
  have h := c.legal
  simp only [sizesLegal, Bool.and_eq_true, decide_eq_true_eq] at h
  cases t <;> simp only [Config.template] <;> omega

theorem obCap_le (c : Config) : c.obCap ≤ 65535 := by
  have h := c.legal
  simp only [sizesLegal, Bool.and_eq_true, decide_eq_true_eq] at h
  omega

end Sys2Proof.Machine
end

