-- ==== Sys2Proof/Laws/State.lean ====
section
/-! SUPPORT. One lemma per field per named update of State, true by rfl, so that no later proof unfolds an update. -/

namespace Sys2Proof.Machine

/-! ### `setNozzle` -/

@[simp] theorem setNozzle_cfg (c : Coord) (s : State) : (setNozzle c s).cfg = s.cfg := rfl
@[simp] theorem setNozzle_nb (c : Coord) (s : State) : (setNozzle c s).nb = orCell s.nb c.byteIndex c.mask := rfl
@[simp] theorem setNozzle_nbHeld (c : Coord) (s : State) : (setNozzle c s).nbHeld = s.nbHeld := rfl
@[simp] theorem setNozzle_qf (c : Coord) (s : State) : (setNozzle c s).qf = s.qf := rfl
@[simp] theorem setNozzle_qs (c : Coord) (s : State) : (setNozzle c s).qs = s.qs := rfl
@[simp] theorem setNozzle_rb (c : Coord) (s : State) : (setNozzle c s).rb = s.rb := rfl
@[simp] theorem setNozzle_tsel (c : Coord) (s : State) : (setNozzle c s).tsel = s.tsel := rfl
@[simp] theorem setNozzle_tselHeld (c : Coord) (s : State) : (setNozzle c s).tselHeld = s.tselHeld := rfl
@[simp] theorem setNozzle_wlen (c : Coord) (s : State) : (setNozzle c s).wlen = s.wlen := rfl
@[simp] theorem setNozzle_ob (c : Coord) (s : State) : (setNozzle c s).ob = s.ob := rfl
@[simp] theorem setNozzle_drainer (c : Coord) (s : State) : (setNozzle c s).drainer = s.drainer := rfl
@[simp] theorem setNozzle_events (c : Coord) (s : State) : (setNozzle c s).events = s.events := rfl
@[simp] theorem setNozzle_cmds (c : Coord) (s : State) : (setNozzle c s).cmds = s.cmds := rfl
@[simp] theorem setNozzle_reqs (c : Coord) (s : State) : (setNozzle c s).reqs = s.reqs := rfl
@[simp] theorem setNozzle_sched (c : Coord) (s : State) : (setNozzle c s).sched = s.sched := rfl
@[simp] theorem setNozzle_draws (c : Coord) (s : State) : (setNozzle c s).draws = s.draws := rfl

/-! ### `handOff` -/

@[simp] theorem handOff_cfg (s : State) : (handOff s).cfg = s.cfg := rfl
@[simp] theorem handOff_nb (s : State) : (handOff s).nb = staleRow s.draws := rfl
@[simp] theorem handOff_nbHeld (s : State) : (handOff s).nbHeld = false := rfl
@[simp] theorem handOff_qf (s : State) : (handOff s).qf = true := rfl
@[simp] theorem handOff_qs (s : State) : (handOff s).qs = s.nb := rfl
@[simp] theorem handOff_rb (s : State) : (handOff s).rb = s.rb := rfl
@[simp] theorem handOff_tsel (s : State) : (handOff s).tsel = s.tsel := rfl
@[simp] theorem handOff_tselHeld (s : State) : (handOff s).tselHeld = s.tselHeld := rfl
@[simp] theorem handOff_wlen (s : State) : (handOff s).wlen = s.wlen := rfl
@[simp] theorem handOff_ob (s : State) : (handOff s).ob = s.ob := rfl
@[simp] theorem handOff_drainer (s : State) : (handOff s).drainer = s.drainer := rfl
@[simp] theorem handOff_events (s : State) : (handOff s).events = s.events := rfl
@[simp] theorem handOff_cmds (s : State) : (handOff s).cmds = s.cmds := rfl
@[simp] theorem handOff_reqs (s : State) : (handOff s).reqs = s.reqs := rfl
@[simp] theorem handOff_sched (s : State) : (handOff s).sched = s.sched := rfl
@[simp] theorem handOff_draws (s : State) : (handOff s).draws = s.draws + 42 := rfl

/-! ### `pushWords` -/

@[simp] theorem pushWords_cfg (len : Nat) (s : State) : (pushWords len s).cfg = s.cfg := rfl
@[simp] theorem pushWords_nb (len : Nat) (s : State) : (pushWords len s).nb = s.nb := rfl
@[simp] theorem pushWords_nbHeld (len : Nat) (s : State) : (pushWords len s).nbHeld = s.nbHeld := rfl
@[simp] theorem pushWords_qf (len : Nat) (s : State) : (pushWords len s).qf = s.qf := rfl
@[simp] theorem pushWords_qs (len : Nat) (s : State) : (pushWords len s).qs = s.qs := rfl
@[simp] theorem pushWords_rb (len : Nat) (s : State) : (pushWords len s).rb = s.rb := rfl
@[simp] theorem pushWords_tsel (len : Nat) (s : State) : (pushWords len s).tsel = s.tsel := rfl
@[simp] theorem pushWords_tselHeld (len : Nat) (s : State) : (pushWords len s).tselHeld = s.tselHeld := rfl
@[simp] theorem pushWords_wlen (len : Nat) (s : State) : (pushWords len s).wlen = s.wlen := rfl
@[simp] theorem pushWords_ob (len : Nat) (s : State) : (pushWords len s).ob = s.ob := rfl
@[simp] theorem pushWords_drainer (len : Nat) (s : State) : (pushWords len s).drainer = s.drainer := rfl
@[simp] theorem pushWords_events (len : Nat) (s : State) : (pushWords len s).events = s.events ++ (busWords s len).map .writeWord := rfl
@[simp] theorem pushWords_cmds (len : Nat) (s : State) : (pushWords len s).cmds = s.cmds := rfl
@[simp] theorem pushWords_reqs (len : Nat) (s : State) : (pushWords len s).reqs = s.reqs := rfl
@[simp] theorem pushWords_sched (len : Nat) (s : State) : (pushWords len s).sched = s.sched := rfl
@[simp] theorem pushWords_draws (len : Nat) (s : State) : (pushWords len s).draws = s.draws := rfl

/-! ### `fillEntry` -/

@[simp] theorem fillEntry_cfg (s : State) : (fillEntry s).cfg = s.cfg := rfl
@[simp] theorem fillEntry_nb (s : State) : (fillEntry s).nb = s.nb := rfl
@[simp] theorem fillEntry_nbHeld (s : State) : (fillEntry s).nbHeld = s.nbHeld := rfl
@[simp] theorem fillEntry_qf (s : State) : (fillEntry s).qf = s.qf := rfl
@[simp] theorem fillEntry_qs (s : State) : (fillEntry s).qs = s.qs := rfl
@[simp] theorem fillEntry_rb (s : State) : (fillEntry s).rb = s.rb := rfl
@[simp] theorem fillEntry_tsel (s : State) : (fillEntry s).tsel = s.tsel := rfl
@[simp] theorem fillEntry_tselHeld (s : State) : (fillEntry s).tselHeld = s.tselHeld := rfl
@[simp] theorem fillEntry_wlen (s : State) : (fillEntry s).wlen = s.wlen := rfl
@[simp] theorem fillEntry_ob (s : State) : (fillEntry s).ob = s.ob := rfl
@[simp] theorem fillEntry_drainer (s : State) : (fillEntry s).drainer = .filling := rfl
@[simp] theorem fillEntry_events (s : State) : (fillEntry s).events = s.events := rfl
@[simp] theorem fillEntry_cmds (s : State) : (fillEntry s).cmds = s.cmds := rfl
@[simp] theorem fillEntry_reqs (s : State) : (fillEntry s).reqs = s.reqs := rfl
@[simp] theorem fillEntry_sched (s : State) : (fillEntry s).sched = s.sched := rfl
@[simp] theorem fillEntry_draws (s : State) : (fillEntry s).draws = s.draws := rfl

/-! ### `fillExit` -/

@[simp] theorem fillExit_cfg (len : Nat) (s : State) : (fillExit len s).cfg = s.cfg := rfl
@[simp] theorem fillExit_nb (len : Nat) (s : State) : (fillExit len s).nb = s.nb := rfl
@[simp] theorem fillExit_nbHeld (len : Nat) (s : State) : (fillExit len s).nbHeld = s.nbHeld := rfl
@[simp] theorem fillExit_qf (len : Nat) (s : State) : (fillExit len s).qf = s.qf := rfl
@[simp] theorem fillExit_qs (len : Nat) (s : State) : (fillExit len s).qs = s.qs := rfl
@[simp] theorem fillExit_rb (len : Nat) (s : State) : (fillExit len s).rb = s.rb := rfl
@[simp] theorem fillExit_tsel (len : Nat) (s : State) : (fillExit len s).tsel = s.tsel := rfl
@[simp] theorem fillExit_tselHeld (len : Nat) (s : State) : (fillExit len s).tselHeld = s.tselHeld := rfl
@[simp] theorem fillExit_wlen (len : Nat) (s : State) : (fillExit len s).wlen = s.wlen := rfl
@[simp] theorem fillExit_ob (len : Nat) (s : State) : (fillExit len s).ob = s.ob := rfl
@[simp] theorem fillExit_drainer (len : Nat) (s : State) : (fillExit len s).drainer = .idle := rfl
@[simp] theorem fillExit_events (len : Nat) (s : State) : (fillExit len s).events = s.events ++ [.fillDone (busWords s len)] := rfl
@[simp] theorem fillExit_cmds (len : Nat) (s : State) : (fillExit len s).cmds = s.cmds := rfl
@[simp] theorem fillExit_reqs (len : Nat) (s : State) : (fillExit len s).reqs = s.reqs := rfl
@[simp] theorem fillExit_sched (len : Nat) (s : State) : (fillExit len s).sched = s.sched := rfl
@[simp] theorem fillExit_draws (len : Nat) (s : State) : (fillExit len s).draws = s.draws := rfl

/-! ### `selectedTemplate` and the status port read nothing but their own fields -/

@[simp] theorem selectedTemplate_fillEntry (s : State) : selectedTemplate (fillEntry s) = selectedTemplate s := rfl

theorem statusPort_reads (s : State) : statusPort s = ⟨s.qf, s.wlen, s.tsel⟩ := rfl

/-! ### `present` -/

theorem present_producer (w : Command) (s : State) :
    present .producer w s = { s with cmds := w :: s.cmds, sched := .producer :: s.sched } := rfl

theorem present_consumer (w : Command) (s : State) :
    present .consumer w s = { s with reqs := w :: s.reqs, sched := .consumer :: s.sched } := rfl

end Sys2Proof.Machine
end

