-- ==== Sys2Proof/Laws/Exec.lean ====
section
/-! SUPPORT. One lemma for each arm of `exec`, and for each shared operation one that says once everything it can do. -/

namespace Sys2Proof.Machine

theorem exec_nbclr (s : State) : exec .nbclr s = .next { s with nb := zeroRow, nbHeld := true } := rfl

theorem exec_tsel (c : Cartridge) (s : State) : exec (.tsel c) s = .next { s with tsel := c, tselHeld := true } := rfl

theorem exec_obclr (s : State) : exec .obclr s = .next { s with ob := s.ob.zeroBelow s.cfg.obCap } := rfl

theorem exec_gen (s : State) :
    exec .gen s = .next { s with
      ob := (enc (selectedTemplate s) s.nb s.ob).2,
      wlen := BitVec.ofNat 16 (enc (selectedTemplate s) s.nb s.ob).1 } := rfl

/-- SETC writes one bit or changes nothing (R131, R132). -/
theorem exec_setc (p : Int) (color : Fin 4) (s : State) :
    exec (.setc p color) s =
      .next (if colorInRange p color.val then setNozzle (colorCoord p.toNat color.val) s else s) := by
  show execSetc p color s = _
  unfold execSetc
  split <;> rfl

/-- SETB writes one bit or changes nothing (R140, R141). -/
theorem exec_setb (p : Int) (row : Fin 2) (s : State) :
    exec (.setb p row) s = .next (if blackInRange p then setNozzle (blackCoord p.toNat row.val) s else s) := by
  show execSetb p row s = _
  unfold execSetb
  split <;> rfl

/-- SEND stalls or hands off (R212, R214). -/
theorem exec_send (s : State) : exec .send s = .next (if s.qf then s else handOff s) := by
  show execSend s = _
  unfold execSend
  split <;> rfl

theorem exec_emit_of_le {s : State} (h : s.wlen.toNat ≤ s.cfg.obCap) :
    exec .emit s = .next (pushWords s.wlen.toNat s) := by
  show execEmit s = _
  rw [execEmit, if_pos h]

/-- EMIT pushes words or stops (R77, R240). -/
theorem exec_emit_cases {s t : State} (h : exec .emit s = .next t) :
    s.wlen.toNat ≤ s.cfg.obCap ∧ t = pushWords s.wlen.toNat s := by
  have h' : execEmit s = .next t := h
  unfold execEmit at h'
  split at h'
  · rename_i hle
    exact ⟨hle, by cases h'; rfl⟩
  · cases h'

/-- TRYRECV, both ways (R216). -/
theorem tryRecv_full {s : State} (h : s.qf = true) : tryRecv s = (some s.qs, { s with rb := s.qs, qf := false }) := by
  simp [tryRecv, h]

theorem tryRecv_free {s : State} (h : s.qf = false) : tryRecv s = (none, s) := by
  simp [tryRecv, h]

/-- What FILL leaves when no row is pending (R230, R234). -/
def afterIdleFill (len : Nat) (s : State) : State := fillExit len { s with ob := s.ob.zeroBelow len }

/-- What FILL leaves when it takes a row (R230, R233). -/
def afterRowFill (len : Nat) (s : State) : State :=
  fillExit len { s with
    rb := s.qs, qf := false, ob := (enc (selectedTemplate s) s.qs (s.ob.zeroBelow len)).2 }

theorem exec_fill_idle {len : Nat} {s : State} (hd : s.drainer = .idle) (hq : s.qf = false) (hc : len ≤ s.cfg.obCap) :
    exec (.fill len) s = .next (afterIdleFill len s) := by
  show execFill len s = _
  simp only [execFill, hd, hc, if_true, fillBody]
  rw [tryRecv_free (by simpa using hq)]
  rfl

theorem exec_fill_row {len : Nat} {s : State} (hd : s.drainer = .idle) (hq : s.qf = true) (hc : len ≤ s.cfg.obCap)
    (hl : waveLength (selectedTemplate s).length ≤ len) :
    exec (.fill len) s = .next (afterRowFill len s) := by
  show execFill len s = _
  simp only [execFill, hd, hc, if_true, fillBody]
  rw [tryRecv_full (by simpa using hq)]
  simp only [fillWithRow]
  rw [if_pos]
  · rfl
  · exact decide_eq_true hl

/-- Everything FILL can do when it completes (R230): the drainer was IDLE, `len` is inside the capacity, and there was no
row, or there was one and its waveform fitted. -/
theorem exec_fill_cases {len : Nat} {s t : State} (h : exec (.fill len) s = .next t) :
    s.drainer = .idle ∧ len ≤ s.cfg.obCap ∧
      ((s.qf = false ∧ t = afterIdleFill len s) ∨
        (s.qf = true ∧ waveLength (selectedTemplate s).length ≤ len ∧ t = afterRowFill len s)) := by
  have h' : execFill len s = .next t := h
  unfold execFill at h'
  split at h'
  · cases h'
  · rename_i hd
    split at h'
    · rename_i hc
      refine ⟨hd, hc, ?_⟩
      cases hq : s.qf with
      | false =>
        left
        have h2 := exec_fill_idle hd hq hc
        rw [h] at h2
        exact ⟨rfl, by cases h2; rfl⟩
      | true =>
        right
        by_cases hl : waveLength (selectedTemplate s).length ≤ len
        · have h2 := exec_fill_row hd hq hc hl
          rw [h] at h2
          exact ⟨rfl, hl, by cases h2; rfl⟩
        · exfalso
          simp only [fillBody] at h'
          rw [tryRecv_full (by simpa using hq)] at h'
          simp only [fillWithRow] at h'
          rw [if_neg] at h'
          · cases h'
          · exact fun e => hl (of_decide_eq_true e)
    · cases h'

/-! ### The fields of the two results of FILL -/

@[simp] theorem afterIdleFill_cfg (len : Nat) (s : State) : (afterIdleFill len s).cfg = s.cfg := rfl
@[simp] theorem afterIdleFill_nb (len : Nat) (s : State) : (afterIdleFill len s).nb = s.nb := rfl
@[simp] theorem afterIdleFill_qf (len : Nat) (s : State) : (afterIdleFill len s).qf = s.qf := rfl
@[simp] theorem afterIdleFill_qs (len : Nat) (s : State) : (afterIdleFill len s).qs = s.qs := rfl
@[simp] theorem afterIdleFill_rb (len : Nat) (s : State) : (afterIdleFill len s).rb = s.rb := rfl
@[simp] theorem afterIdleFill_tsel (len : Nat) (s : State) : (afterIdleFill len s).tsel = s.tsel := rfl
@[simp] theorem afterIdleFill_wlen (len : Nat) (s : State) : (afterIdleFill len s).wlen = s.wlen := rfl
@[simp] theorem afterIdleFill_ob (len : Nat) (s : State) : (afterIdleFill len s).ob = s.ob.zeroBelow len := rfl
@[simp] theorem afterIdleFill_drainer (len : Nat) (s : State) : (afterIdleFill len s).drainer = .idle := rfl
@[simp] theorem afterRowFill_cfg (len : Nat) (s : State) : (afterRowFill len s).cfg = s.cfg := rfl
@[simp] theorem afterRowFill_nb (len : Nat) (s : State) : (afterRowFill len s).nb = s.nb := rfl
@[simp] theorem afterRowFill_qf (len : Nat) (s : State) : (afterRowFill len s).qf = false := rfl
@[simp] theorem afterRowFill_qs (len : Nat) (s : State) : (afterRowFill len s).qs = s.qs := rfl
@[simp] theorem afterRowFill_rb (len : Nat) (s : State) : (afterRowFill len s).rb = s.qs := rfl
@[simp] theorem afterRowFill_tsel (len : Nat) (s : State) : (afterRowFill len s).tsel = s.tsel := rfl
@[simp] theorem afterRowFill_wlen (len : Nat) (s : State) : (afterRowFill len s).wlen = s.wlen := rfl
@[simp] theorem afterRowFill_ob (len : Nat) (s : State) :
    (afterRowFill len s).ob = (enc (selectedTemplate s) s.qs (s.ob.zeroBelow len)).2 := rfl
@[simp] theorem afterRowFill_drainer (len : Nat) (s : State) : (afterRowFill len s).drainer = .idle := rfl

end Sys2Proof.Machine
end

