-- ==== Sys2Proof/Laws/Step.lean ====
section
/-! SUPPORT. What serving a port can do, said once (spec/30_encoding.md R111, R120). -/

namespace Sys2Proof.Machine

/-- A command on a port that completes is an operation of that port, or nothing happened. -/
theorem runOn_cases {p : Port} {w : Command} {s t : State} (h : runOn p w s = .next t) :
    (∃ i, commandOn p w = some i ∧ exec i s = .next t) ∨ (commandOn p w = none ∧ t = s) := by
  unfold runOn at h
  cases hc : commandOn p w with
  | none => rw [hc] at h; right; exact ⟨rfl, by cases h; rfl⟩
  | some i => rw [hc] at h; left; exact ⟨i, rfl, h⟩

/-- A step that completes changes nothing but the words presented and the schedule, or is one operation on a state that
differs from the one before it in those alone. -/
theorem step_cases {s t : State} (h : step s = .next t) :
    ∃ (cmds reqs : List Command) (sched : List Port),
      t = { s with cmds := cmds, reqs := reqs, sched := sched } ∨
      ∃ i, exec i { s with cmds := cmds, reqs := reqs, sched := sched } = .next t := by
  unfold step takeTurn at h
  split at h
  · exact ⟨s.cmds, s.reqs, s.sched, Or.inl (by cases h; rfl)⟩
  · rename_i p rest _
    cases p with
    | producer =>
      simp only [serve, serveProducer] at h
      split at h
      · exact ⟨s.cmds, s.reqs, rest, Or.inl (by cases h; rfl)⟩
      · rename_i w ws _
        split at h
        · refine ⟨ws, s.reqs, rest, ?_⟩
          rcases runOn_cases h with ⟨i, _, hi⟩ | ⟨_, rfl⟩
          · exact Or.inr ⟨i, hi⟩
          · exact Or.inl rfl
        · exact ⟨s.cmds, s.reqs, rest, Or.inl (by cases h; rfl)⟩
    | consumer =>
      simp only [serve, serveConsumer] at h
      split at h
      · exact ⟨s.cmds, s.reqs, rest, Or.inl (by cases h; rfl)⟩
      · rename_i w ws _
        refine ⟨s.cmds, ws, rest, ?_⟩
        rcases runOn_cases h with ⟨i, _, hi⟩ | ⟨_, rfl⟩
        · exact Or.inr ⟨i, hi⟩
        · exact Or.inl rfl

end Sys2Proof.Machine
end

