-- ==== Sys2Proof/Laws/Outcomes.lean ====
section
/-! SUPPORT. How the spec's three outcomes (spec/00_scope.md R16) stand to what `exec` and `step` answer. -/

namespace Sys2Proof.Machine

theorem specStalls_iff (i : Instr) (s : State) : specStalls i s = true ↔ i = .send ∧ s.qf = true := by
  simp [specStalls]

/-- A SEND that stalls is not refused: the stall is tested before its `require` line (R212). -/
theorem specRefusal_of_stalls {i : Instr} {s : State} (h : specStalls i s = true) : specRefusal i s = none := by
  obtain ⟨rfl, hq⟩ := (specStalls_iff i s).mp h
  simp [specRefusal, hq]

/-- Where the spec has an operation complete, `exec` answers that state, and the spec neither holds nor refuses it. -/
theorem specOutcome_completes {i : Instr} {s t : State} (h : specOutcome i s = .completes t) :
    exec i s = .next t ∧ specRefusal i s = none ∧ specStalls i s = false := by
  unfold specOutcome at h
  split at h
  · cases h
  · rename_i hs
    cases hr : specRefusal i s with
    | some r => rw [hr] at h; cases h
    | none =>
      rw [hr] at h
      cases he : exec i s with
      | next u => rw [he] at h; cases h; exact ⟨rfl, rfl, by simpa using hs⟩
      | fault f => rw [he] at h; cases h
      | refused f => rw [he] at h; cases h

theorem specOutcome_stalls {i : Instr} {s : State} : specOutcome i s = .stalls ↔ i = .send ∧ s.qf = true := by
  rw [← specStalls_iff]
  unfold specOutcome
  cases specStalls i s with
  | true => simp
  | false =>
    cases specRefusal i s with
    | some r => simp
    | none => cases exec i s <;> simp [outcomeOfRun]

/-- What the hardware does with a stalled SEND is nothing (R214). -/
theorem exec_of_stalls {i : Instr} {s : State} (h : specOutcome i s = .stalls) : exec i s = .next s := by
  obtain ⟨rfl, hq⟩ := specOutcome_stalls.mp h
  rw [exec_send, hq]
  rfl

theorem specWord_completes {p : Port} {w : Command} {s t : State} (h : specWord p w s = .completes t) :
    ∃ i, commandOn p w = some i ∧ specStalls i s = false ∧ exec i s = .next t := by
  unfold specWord at h
  cases hc : commandOn p w with
  | none => rw [hc] at h; cases h
  | some i =>
    rw [hc] at h
    obtain ⟨he, -, hs⟩ := specOutcome_completes h
    exact ⟨i, rfl, hs, he⟩

/-- `cmd_ready` is 1 exactly where the presented operation does not stall. -/
theorem cmdReady_of_not_stalls {w : Command} {i : Instr} {s : State} (hc : commandOn .producer w = some i)
    (hs : specStalls i s = false) : cmdReady w s = true := by
  unfold cmdReady
  rw [hc]
  cases i <;> simp_all [specStalls]

/-- Where a step completes with the spec's refusals kept, it is the machine's step (R16, R17). -/
theorem specStep_completes {s t : State} (h : specStep s = .completes t) : step s = .next t := by
  unfold specStep at h
  unfold step takeTurn
  cases hs : s.sched with
  | nil => rw [hs] at h; cases h; rfl
  | cons p rest =>
    rw [hs] at h
    cases p with
    | producer =>
      simp only [specServe] at h
      simp only [serve, serveProducer]
      cases hc : s.cmds with
      | nil => rw [hc] at h; cases h; simp
      | cons w ws =>
        rw [hc] at h
        obtain ⟨i, hi, hst, he⟩ := specWord_completes h
        simp only [cmdReady_of_not_stalls (s := { s with sched := rest, cmds := w :: ws }) hi hst, if_true, runOn, hi]
        exact he
    | consumer =>
      simp only [specServe] at h
      simp only [serve, serveConsumer]
      cases hc : s.reqs with
      | nil => rw [hc] at h; cases h; simp
      | cons w ws =>
        rw [hc] at h
        obtain ⟨i, hi, -, he⟩ := specWord_completes h
        simp only [runOn, hi]
        exact he

end Sys2Proof.Machine
end

