-- ==== Sys2Proof/Laws/PerInstr.lean ====
section
/-! SUPPORT. The per-instruction family `OpcodeField`: the operation code stands in bits 31:28 of an operation's word, and
the bits 27:18 are zero (spec/30_encoding.md R110, R118). -/

namespace Sys2Proof.Laws.OpcodeField

/-- An operation whose operands fit has its code in `OPC` and zero in `Z`. -/
def Statement (i : Instr) : Prop := i.wellFormed = true → fieldOpc (encode i) = i.opcode ∧ fieldZ (encode i) = 0

/-- The arithmetic of the word's layout. -/
theorem of_bounds (i : Instr) (ho : i.opcode < 16) (hs : i.selfField < 4) (hm : i.immField < 65536) :
    fieldOpc (encode i) = i.opcode ∧ fieldZ (encode i) = 0 := by
  simp only [fieldOpc, fieldZ, field, encode, BitVec.toNat_ofNat]
  omega

theorem imm16_lt (p : Int) : imm16 p < 65536 := by
  unfold imm16
  omega

theorem nbclr : Statement .nbclr := fun _ => of_bounds _ (by decide) (by decide) (by decide)

theorem setc (p : Int) (color : Fin 4) : Statement (.setc p color) :=
  fun _ => of_bounds _ (show 2 < 16 by decide) color.isLt (imm16_lt p)

theorem setb (p : Int) (row : Fin 2) : Statement (.setb p row) :=
  fun _ => of_bounds _ (show 3 < 16 by decide) (Nat.lt_trans row.isLt (by decide)) (imm16_lt p)

theorem tsel (t : Cartridge) : Statement (.tsel t) :=
  fun _ => of_bounds _ (show 4 < 16 by decide) (by cases t <;> decide) (show 0 < 65536 by decide)

theorem obclr : Statement .obclr := fun _ => of_bounds _ (by decide) (by decide) (by decide)

theorem gen : Statement .gen := fun _ => of_bounds _ (by decide) (by decide) (by decide)

theorem emit : Statement .emit := fun _ => of_bounds _ (by decide) (by decide) (by decide)

theorem send : Statement .send := fun _ => of_bounds _ (by decide) (by decide) (by decide)

theorem fill (len : Nat) : Statement (.fill len) := by
  intro h
  have h' : len ≤ 65535 := by simpa [Instr.wellFormed, lengthFits] using h
  exact of_bounds _ (show 9 < 16 by decide) (show 0 < 4 by decide) (show len < 65536 by omega)

end Sys2Proof.Laws.OpcodeField
end

