-- ==== Sys2Proof/Tests/Slice0.lean ====
section
/-! SUPPORT. The model's own tests.  Every expected result is one of spec/95_test_vectors.md (its id is in the theorem's
docstring) or is worked out by hand from the rule named; the `test_witness_…` theorems show that the hypotheses of a
statement can be met. -/

namespace Sys2Proof.Machine

/-! ### A small machine -/

/-- `T1`, the "synthetic single-toggle template" (spec/95_test_vectors.md 4.3). -/
def testTemplate : List Word := [0x0001#16]

/-- Every template `T1` and `OB_CAP = 126` (P1). -/
def testConfig : Config := ⟨testTemplate, testTemplate, testTemplate, testTemplate, 126, by decide⟩

/-- Reset, then TSEL 0 and NBCLR, with row registers of zeros. -/
def testState : State :=
  { State.reset with
    cfg := testConfig, tsel := .colorA, tselHeld := true, nb := zeroRow, nbHeld := true, qs := zeroRow, rb := zeroRow }

/-- `NB[8] = 0x01`, the rest zero (E-3). -/
def testRow : Row := zeroRow.setIfInBounds 8 0x01#8

/-- `testState` with `OB` cleared and `NB` the row of E-3. -/
def testReady : State := { testState with nb := testRow, ob := (List.range 126).map fun n => (n, 0#16) }

/-- `testState` with the row of E-3 pending. -/
def testPending : State := { testState with qs := testRow, qf := true }

/-- The state of a completed step. -/
def stateAfter : Host.Outcome State Fault Refusal → Option State
  | .next s => some s
  | .fault _ => none
  | .refused _ => none

/-- The step completed. -/
def completes : Host.Outcome State Fault Refusal → Bool
  | .next _ => true
  | .fault _ => false
  | .refused _ => false

/-! ### WellFormed: each check refuses an ill-formed term -/

theorem test_setc_index_too_large : (Instr.setc 32768 0).wellFormed = false := by decide
theorem test_setc_index_too_small : (Instr.setc (-32769) 0).wellFormed = false := by decide
theorem test_setb_index_too_large : (Instr.setb 32768 1).wellFormed = false := by decide
theorem test_setb_index_too_small : (Instr.setb (-32769) 1).wellFormed = false := by decide
theorem test_fill_length_too_large : (Instr.fill 65536).wellFormed = false := by decide

/-! ### Decode: the words of spec/95_test_vectors.md section 2, written out from R110 -/

/-- W-1. -/
theorem test_decode_nbclr : decode 0x10000000#32 = .ok .nbclr := by decide
/-- W-2, W-3, W-4, W-5. -/
theorem test_decode_setc :
    decode 0x20000000#32 = .ok (.setc 0 0) ∧ decode 0x20020061#32 = .ok (.setc 97 2) ∧
    decode 0x2000FFFF#32 = .ok (.setc (-1) 0) ∧ decode 0x20018000#32 = .ok (.setc (-32768) 1) := by decide
/-- W-6, W-7. -/
theorem test_decode_setb :
    decode 0x30010000#32 = .ok (.setb 0 1) ∧ decode 0x300100A7#32 = .ok (.setb 167 1) := by decide
/-- W-8. -/
theorem test_decode_tsel :
    decode 0x40000000#32 = .ok (.tsel .colorA) ∧ decode 0x40010000#32 = .ok (.tsel .colorB) ∧
    decode 0x40020000#32 = .ok (.tsel .blackA) ∧ decode 0x40030000#32 = .ok (.tsel .blackB) := by decide
/-- W-9. -/
theorem test_decode_obclr : decode 0x50000000#32 = .ok .obclr := by decide
/-- W-10. -/
theorem test_decode_gen : decode 0x60000000#32 = .ok .gen := by decide
/-- W-11. -/
theorem test_decode_emit : decode 0x70000000#32 = .ok .emit := by decide
/-- W-12. -/
theorem test_decode_send : decode 0x80000000#32 = .ok .send := by decide
/-- W-13, W-14, W-15. -/
theorem test_decode_fill :
    decode 0x9000007E#32 = .ok (.fill 126) ∧ decode 0x90000196#32 = .ok (.fill 406) ∧
    decode 0x90000000#32 = .ok (.fill 0) := by decide
/-- The illegal words of section 2. -/
theorem test_decode_illegal :
    decode 0x00000000#32 = .error .unknownOpcode ∧ decode 0xA0000000#32 = .error .unknownOpcode ∧
    decode 0xF0000000#32 = .error .unknownOpcode ∧ decode 0x10000001#32 = .error .nonzeroImm ∧
    decode 0x20040000#32 = .error .nonzeroZ ∧ decode 0x30020000#32 = .error .rowBit17 ∧
    decode 0x40000001#32 = .error .nonzeroImm ∧ decode 0x90010000#32 = .error .nonzeroSelf := by decide
/-- The two words of section 2 that are legal on the other port only. -/
theorem test_wrong_port :
    commandOn .producer 0x90000010#32 = none ∧ commandOn .consumer 0x80000000#32 = none := by decide
/-- W-3, W-4, W-7, W-8 and W-14 the other way. -/
theorem test_encode :
    encode (.setc 97 2) = 0x20020061#32 ∧ encode (.setc (-1) 0) = 0x2000FFFF#32 ∧
    encode (.setb 167 1) = 0x300100A7#32 ∧ encode (.tsel .blackB) = 0x40030000#32 ∧
    encode (.fill 406) = 0x90000196#32 := by decide
theorem test_decode_table_word :
    decodeTableWord 32 0x20020061 = some (.setc 97 2) ∧ decodeTableWord 32 0xA0000000 = none := by decide

/-! ### Every operation runs as the first one after reset -/

theorem test_nbclr_runs_from_reset : completes (step (State.reset.withFetchWord 32 0x10000000)) = true := by decide
theorem test_setc_runs_from_reset : completes (step (State.reset.withFetchWord 32 0x20020061)) = true := by decide
theorem test_setb_runs_from_reset : completes (step (State.reset.withFetchWord 32 0x300100A7)) = true := by decide
theorem test_tsel_runs_from_reset : completes (step (State.reset.withFetchWord 32 0x40020000)) = true := by decide
theorem test_obclr_runs_from_reset : completes (step (State.reset.withFetchWord 32 0x50000000)) = true := by decide
theorem test_gen_runs_from_reset : completes (step (State.reset.withFetchWord 32 0x60000000)) = true := by decide
theorem test_emit_runs_from_reset : completes (step (State.reset.withFetchWord 32 0x70000000)) = true := by decide
theorem test_send_runs_from_reset : completes (step (State.reset.withFetchWord 32 0x80000000)) = true := by decide
theorem test_fill_runs_from_reset : completes (step (State.reset.withFetchWord 32 0x90000000)) = true := by decide

/-! ### Single operations -/

/-- C-1: NBCLR on `NB[8] = 0x01`. -/
theorem test_nbclr : (stateAfter (exec .nbclr testReady)).map (fun t => cell t.nb 8) = some 0x00#8 := by decide

/-- A-8: `SETC 97, 2` sets `NB[37]` to 0x40. -/
theorem test_setc : (stateAfter (exec (.setc 97 2) testState)).map (fun t => (cell t.nb 37, cell t.nb 9)) =
    some (0x40#8, 0x00#8) := by decide

/-- R134: from `NB[8] = 0x01`, `SETC 14, 0` gives `NB[8] = 0x03`. -/
theorem test_setc_accumulates :
    (stateAfter (exec (.setc 14 0) testReady)).map (fun t => cell t.nb 8) = some 0x03#8 := by decide

/-- B-9: `SETB 100, 1` sets `NB[31]` to 0x80. -/
theorem test_setb : (stateAfter (exec (.setb 100 1) testState)).map (fun t => cell t.nb 31) = some 0x80#8 := by decide

/-- B-6 and B-16: `SETB 83, 0` sets `NB[13]` to 0x02, and `SETB 335, 0` does not alias to row 1. -/
theorem test_setb_edges :
    (stateAfter (exec (.setb 83 0) testState)).map (fun t => cell t.nb 13) = some 0x02#8 ∧
    (stateAfter (exec (.setb 335 0) testState)).map (fun t => t.nb) = some zeroRow := by decide

/-- T-1. -/
theorem test_tsel : (stateAfter (exec (.tsel .blackB) testReady)).map (fun t => (t.tsel, t.wlen)) =
    some (.blackB, 0#16) := by decide

/-- C-2: the last cell of `OB`, and no cell after it. -/
theorem test_obclr : (stateAfter (exec .obclr testState)).map (fun t => (t.ob.read 125, t.ob.read 126)) =
    some (some 0#16, none) := by decide

/-- E-3. -/
theorem test_gen : (stateAfter (exec .gen testReady)).map
    (fun t => (t.wlen, t.ob.read 72, t.ob.read 117, t.ob.read 73)) =
    some (126#16, some 0x0006#16, some 0x0007#16, some 0#16) := by decide

/-- E-8, on cells that hold no value: GEN does not write the gaps (R184). -/
theorem test_gen_leaves_the_gaps :
    (stateAfter (exec .gen { testReady with ob := [(1, 0xFFFF#16)] })).map
      (fun t => (t.ob.read 0, t.ob.read 1, t.ob.read 8)) = some (some 0x0007#16, some 0xFFFF#16, none) := by decide

/-- M-1. -/
theorem test_emit_nothing : (stateAfter (exec .emit testReady)).map (fun t => t.events) = some [] := by decide

/-- R240: ascending order. -/
theorem test_emit_order :
    (stateAfter (exec .emit { testReady with wlen := 2#16, ob := [(0, 0x0007#16), (1, 0x0006#16)] })).map
      (fun t => t.events) = some [.writeWord 0x0007#16, .writeWord 0x0006#16] := by decide

/-- Q-1. -/
theorem test_send : (stateAfter (exec .send testReady)).map (fun t => (t.qf, t.nbHeld, cell t.qs 8)) =
    some (true, false, 0x01#8) := by decide

/-- Q-2. -/
theorem test_send_stalls : (stateAfter (exec .send testPending)).map (fun t => (t.qf, cell t.qs 8, t.draws)) =
    some (true, 0x01#8, 0) := by decide

/-- F-2. -/
theorem test_fill_row : (stateAfter (exec (.fill 126) testPending)).map
    (fun t => (t.qf, t.ob.read 72, t.ob.read 0, t.ob.read 125, t.wlen)) =
    some (false, some 0x0006#16, some 0x0007#16, some 0#16, 0#16) := by decide

/-- F-8: an idle FILL writes the cells below `len` and leaves the others. -/
theorem test_fill_idle :
    (stateAfter (exec (.fill 2) { testState with ob := [(1, 0xFFFF#16), (2, 0xFFFF#16)] })).map
      (fun t => (t.ob, t.events)) =
    some ([(0, 0#16), (1, 0#16), (2, 0xFFFF#16)], [.fillDone [0#16, 0#16]]) := by decide

/-! ### The spec's three outcomes (R16) -/

/-- Q-4, Q-2, and Q-1 as a completion. -/
theorem test_outcome_of_send :
    specOutcome .send State.reset = .refused .nbUndefined ∧ specOutcome .send testPending = .stalls ∧
    specOutcome .send testReady = .completes (handOff testReady) :=
  ⟨by decide, by decide, rfl⟩

/-- F-7, F-5 and F-4. -/
theorem test_outcome_of_fill :
    specOutcome (.fill 126) { testPending with tselHeld := false } = .refused .tselUndefined ∧
    specOutcome (.fill 127) testPending = .refused .lenOverCapacity ∧
    specOutcome (.fill 125) testPending = .refused .lenTooSmall := by decide

/-- The remark under P1: without NBCLR the model refuses SETC, without OBCLR it refuses EMIT. -/
theorem test_outcome_of_omissions :
    specOutcome (.setc 0 0) { testState with nbHeld := false } = .refused .nbUndefined ∧
    specOutcome .emit { testState with wlen := 126#16, ob := [(0, 0x0007#16)] } = .refused .obUndefined := by decide

/-- An illegal word of section 2 is refused (R120). -/
theorem test_outcome_of_illegal_word :
    specStep { testState with sched := [.producer], cmds := [0xA0000000#32] } = .refused .illegalWord := by decide

/-! ### One word (spec/95_test_vectors.md 4.1) -/

/-- A row with the three cells of stage `j`. -/
def rowWith (j : Nat) (a b c : Byte) : Row :=
  ((zeroRow.setIfInBounds j a).setIfInBounds (14 + j) b).setIfInBounds (28 + j) c

/-- V-1 to V-6. -/
theorem test_words_data :
    encodeWord (rowWith 0 0x01#8 0x00#8 0xF0#8) 0 1 0x0F03#16 = 0x0F06#16 ∧
    encodeWord (rowWith 0 0x01#8 0x00#8 0xF0#8) 0 16 0x0F03#16 = 0x0F03#16 ∧
    encodeWord (rowWith 0 0x01#8 0x00#8 0x00#8) 0 1 0x0F03#16 = 0x0706#16 ∧
    encodeWord (rowWith 0 0x10#8 0x00#8 0x00#8) 0 1 0xFFFF#16 = 0xFBFF#16 ∧
    encodeWord (rowWith 0 0xFF#8 0xFF#8 0xFF#8) 0 1 0xFFFF#16 = 0xFFF8#16 ∧
    encodeWord (rowWith 13 0xFF#8 0xFF#8 0xFF#8) 13 1 0xFFFF#16 = 0xFFF8#16 := by decide

/-- V-7 to V-13. -/
theorem test_words_sync :
    encodeWord (rowWith 5 0x01#8 0x00#8 0x00#8) 5 1 0x8000#16 = 0x8008#16 ∧
    encodeWord (rowWith 13 0x01#8 0x00#8 0x00#8) 13 1 0x8000#16 = 0x8000#16 ∧
    encodeWord (rowWith 13 0x01#8 0x00#8 0x00#8) 13 1 0x4000#16 = 0x4008#16 ∧
    encodeWord (rowWith 0 0x01#8 0x00#8 0x00#8) 0 1 0x4000#16 = 0x4000#16 ∧
    encodeWord (rowWith 3 0xFF#8 0xFF#8 0xFF#8) 3 256 0x0C01#16 = 0x0C07#16 ∧
    encodeWord (rowWith 3 0xFF#8 0xFF#8 0xFF#8) 3 4 0x0C00#16 = 0x0C00#16 ∧
    encodeWord (rowWith 2 0x80#8 0x7F#8 0x00#8) 2 128 0x0002#16 = 0x0006#16 := by decide

/-- E-6, the selector of `T3`: 1, 1, 2, 4, 8, 16. -/
theorem test_selector :
    (List.range 6).map (selAt [0x0001#16, 0x0001#16, 0x0003#16, 0x0002#16, 0x0000#16, 0x0001#16]) =
      [1, 1, 2, 4, 8, 16] := by decide

/-! ### Witnesses: the hypotheses of each statement can be met -/

/-- Presents one word on each port and gives `p` the turn. -/
def presented (p : Port) (w f : Command) (s : State) : State := { s with sched := [p], cmds := [w], reqs := [f] }

theorem test_witness_DecodeOfEncodeIsTheInstruction :
    Instr.nbclr.wellFormed = true ∧ (Instr.setc (-32768) 3).wellFormed = true ∧
    (Instr.setc 32767 0).wellFormed = true ∧ (Instr.setb (-32768) 1).wellFormed = true ∧
    (Instr.setb 32767 0).wellFormed = true ∧ (Instr.tsel .blackB).wellFormed = true ∧
    Instr.obclr.wellFormed = true ∧ Instr.gen.wellFormed = true ∧ Instr.emit.wellFormed = true ∧
    Instr.send.wellFormed = true ∧ (Instr.fill 0).wellFormed = true ∧ (Instr.fill 65535).wellFormed = true := by decide

theorem test_witness_EncodeOfDecodeIsTheWord :
    decode 0x2003FFFF#32 = .ok (.setc (-1) 3) ∧ decode 0x9000FFFF#32 = .ok (.fill 65535) := by decide

theorem test_witness_WordSelectsExactlyItsPattern :
    (⟨"SETB", 0x30000000#32, 0xFFFE0000#32⟩ : Pattern) ∈ patterns ∧
    0x300100A7#32 &&& 0xFFFE0000#32 = 0x30000000#32 := by decide

theorem test_witness_StepRunsThePresentedCommand :
    (presented .producer 0x80000000#32 0#32 testState).sched = [.producer] ∧
    (presented .producer 0x80000000#32 0#32 testState).cmds = [0x80000000#32] ∧
    decode 0x80000000#32 = .ok .send ∧ Instr.send.port = .producer ∧
    (presented .producer 0x80000000#32 0#32 testState).qf = false ∧
    (presented .consumer 0#32 0x9000007E#32 testState).sched = [.consumer] ∧
    (presented .consumer 0#32 0x9000007E#32 testState).reqs = [0x9000007E#32] ∧
    decode 0x9000007E#32 = .ok (.fill 126) ∧ (Instr.fill 126).port = .consumer := by decide

theorem test_witness_StalledSendStaysPresented :
    (presented .producer 0x80000000#32 0#32 testPending).sched = [.producer] ∧
    (presented .producer 0x80000000#32 0#32 testPending).cmds = [0x80000000#32] ∧
    decode 0x80000000#32 = .ok .send ∧ (presented .producer 0x80000000#32 0#32 testPending).qf = true := by decide

theorem test_witness_IllegalWordDoesNothing :
    (presented .producer 0x90000010#32 0#32 testState).sched = [.producer] ∧
    (presented .producer 0x90000010#32 0#32 testState).cmds = [0x90000010#32] ∧
    (∀ i, decode 0x90000010#32 = .ok i → i.port ≠ .producer) ∧
    (presented .consumer 0#32 0#32 testState).sched = [.consumer] ∧
    (presented .consumer 0#32 0#32 testState).reqs = [0#32] ∧
    (∀ i, decode 0#32 = .ok i → i.port ≠ .consumer) := by
  refine ⟨rfl, rfl, ?_, rfl, rfl, ?_⟩
  · intro i h
    have e : decode 0x90000010#32 = .ok (.fill 16) := by decide
    rw [e] at h
    cases h
    decide
  · intro i h
    have e : decode 0#32 = .error .unknownOpcode := by decide
    rw [e] at h
    cases h

theorem test_witness_StepWithNothingToServe :
    testState.sched = [] ∧
    { testState with sched := [.producer] }.cmds = [] ∧ { testState with sched := [.consumer] }.reqs = [] := by decide

theorem test_witness_FetchWordIsPerformedNext :
    Instr.send.wellFormed = true ∧ testState.qf = false ∧ (Instr.fill 126).wellFormed = true := by decide

/-- The stalled SEND of P3, with the consumer's request behind it. -/
def testStalled : State :=
  { testPending with
    sched := [.producer, .consumer, .producer], cmds := [0x80000000#32], reqs := [0x9000007E#32] }

theorem test_witness_StalledSendCompletesAfterAFill :
    testStalled.qf = true ∧ testStalled.drainer = .idle ∧ testStalled.sched = [.producer, .consumer, .producer] ∧
    testStalled.cmds = [0x80000000#32] ∧ decode 0x80000000#32 = .ok .send ∧ testStalled.reqs = [0x9000007E#32] ∧
    decode 0x9000007E#32 = .ok (.fill 126) ∧ waveLength (selectedTemplate testStalled).length ≤ 126 ∧
    126 ≤ testStalled.cfg.obCap := by decide

theorem test_witness_SetcSetsOneBit : (111 ≤ 111 ∧ (2 : Fin 4).val ≤ 2) ∧ (0 ≤ 111 ∧ (0 : Fin 4).val ≤ 2) := by decide

theorem test_witness_SetcRangeTest :
    ((-1 : Int) < 0) ∧ ((112 : Int) < 113) ∧ ((3 : Fin 4).val = 3) ∧ (112 ≤ 112 ∧ (2 : Fin 4).val ≤ 2) := by decide

theorem test_witness_SetcOneHundredTwelveChangesNothing : (2 : Fin 4).val ≤ 2 := by decide

theorem test_witness_SetbSetsOneBit : 167 ≤ 167 ∧ 0 ≤ 167 := by decide

theorem test_witness_SetbRangeTest : ((-1 : Int) < 0) ∧ ((167 : Int) < 168) ∧ 167 ≤ 167 := by decide

/-- A-10, and coordinate (37, 7); A-9 and A-5 for the consecutive nozzles. -/
theorem test_witness_ColorAddressingIsABijection :
    (111 ≤ 111 ∧ 2 ≤ 2 ∧ 37 < 42 ∧ 7 < 8 ∧ colorCoord 111 2 = ⟨37, 7⟩) ∧ (110 < 111 ∧ (110 + 1) % 14 ≠ 0) := by decide

/-- B-11, and coordinate (4, 7). -/
theorem test_witness_BlackAddressingIsABijection :
    (167 ≤ 167 ∧ 1 ≤ 1 ∧ 4 < 42 ∧ 7 < 8 ∧ blackCoord 167 1 = ⟨4, 7⟩) ∧
    (2 < 3 ∧ 7 < 8 ∧ 18 < 24 ∧ (nozzleInfo 18).c = 2 ∧ (nozzleInfo 18).bit = 6) ∧
    (1 < 2 ∧ 13 < 14 ∧ 0 < 14 ∧ blackByteOrder 1 0 = 13) := by decide

theorem test_witness_BlackRowsNeverShareACoordinate : 167 ≤ 167 ∧ 0 ≤ 167 := by decide

theorem test_witness_AddresserOperationsCommute :
    ((∃ p c, Instr.setc 97 2 = .setc p c) ∨ ∃ p r, Instr.setc 97 2 = .setb p r) ∧
    ((∃ p c, Instr.setb 0 1 = .setc p c) ∨ ∃ p r, Instr.setb 0 1 = .setb p r) :=
  ⟨.inl ⟨97, 2, rfl⟩, .inr ⟨0, 1, rfl⟩⟩

theorem test_witness_ObclrZeroesTheOutputBuffer : 125 < testState.cfg.obCap ∧ testState.cfg.obCap ≤ 126 := by decide

theorem test_witness_RoundingNeverChangesALength : 406 % 2 = 0 ∧ 407 % 2 = 1 := by decide

theorem test_witness_EmptyRowEncodesToZeros :
    (∀ a, a < 42 → cell testState.nb a = 0#8) ∧ (13 < 14 ∧ 0 < (selectedTemplate testState).length ∧ 7 < 8) ∧
    (∀ n, n < waveLength (selectedTemplate { testReady with nb := zeroRow }).length →
      { testReady with nb := zeroRow }.ob.read n = some 0#16) :=
  ⟨fun a _ => cell_zeroRow a, by decide, fun n hn => by
    have h : n < 126 := hn
    show Memory.read ((List.range 126).map fun n => (n, 0#16)) n = some 0#16
    rw [Memory.read_zeros]
    simp [h]⟩

theorem test_witness_GapCellsKeepWhatTheyHeld : 13 < 14 ∧ 7 < 8 := by decide

theorem test_witness_AuxiliaryPowerLinesAreSuppressed : 13 < 14 ∧ [0x0C01#16][0]? = some 0x0C01#16 := by decide

theorem test_witness_DataLinesAreActiveLow :
    rowEmpty testRow = false ∧ 13 < 14 ∧ testTemplate[0]? = some 0x0001#16 := by decide

theorem test_witness_SyncFollowsTheSelectBit :
    rowEmpty testRow = false ∧ 13 < 14 ∧ 12 < 14 ∧ [0xE200#16][0]? = some 0xE200#16 := by decide

theorem test_witness_StrobeAndClockBitsPassThrough :
    rowEmpty testRow = false ∧ 13 < 14 ∧ [0xE200#16][0]? = some 0xE200#16 ∧ 4 ≤ 15 ∧ 15 < 16 ∧ 15 ≠ 10 ∧ 15 ≠ 11 := by
  decide

theorem test_witness_SelectorIsSetOnEveryDataWord :
    testTemplate[0]? = some 0x0001#16 ∧ (0x0001#16).extractLsb' 0 2 ≠ 0#2 := by decide

theorem test_witness_StagesAreIndependent :
    rowEmpty testRow = rowEmpty testRow ∧ 0 < 14 ∧ 12 < 14 ∧ (0 = 13 ↔ 12 = 13) ∧ 0 < testTemplate.length ∧
    cell testRow 0 = cell testRow 12 ∧ cell testRow (14 + 0) = cell testRow (14 + 12) ∧
    cell testRow (28 + 0) = cell testRow (28 + 12) := by decide

theorem test_witness_OneObclrPerJobIsEnough :
    (Memory.wf [(0, 0x0007#16), (1, 0#16)] = true) ∧ testReady.ob.wf = true ∧ ∃ t, exec .gen testReady = .next t :=
  ⟨by decide, by decide, _, rfl⟩

theorem test_witness_SendHandsTheRowOff : testReady.qf = false := by decide

theorem test_witness_SendStallsWhileTheSlotIsFull :
    testPending.qf = true ∧ decode 0x80000000#32 = .ok .send ∧ cmdReady 0x80000000#32 testPending = false := by decide

theorem test_witness_TryRecvTakesThePendingRow : testPending.qf = true ∧ testState.qf = false := by decide

theorem test_witness_SendsLessTakesIsTheFlag : ∃ t, execAll [.send, .fill 126, .send] testReady = .next t := ⟨_, rfl⟩

/-- SEND, and NBCLR and SETC 1,0 of the next row before the FILL (P3). -/
theorem test_witness_TheRowEncodedIsTheRowSent :
    testReady.qf = false ∧ testReady.drainer = .idle ∧
    ∃ s1 t, exec .send testReady = .next s1 ∧ (∀ i ∈ [Instr.nbclr, .setc 1 0], i.port = .producer) ∧
      execAll [.nbclr, .setc 1 0] s1 = .next t ∧ waveLength (selectedTemplate t).length ≤ 126 ∧ 126 ≤ t.cfg.obCap :=
  ⟨rfl, rfl, _, _, rfl, by decide, rfl, by decide, by decide⟩

theorem test_witness_FillWithoutARowLeavesTheIdlePattern :
    testState.drainer = .idle ∧ testState.qf = false ∧ 126 ≤ testState.cfg.obCap := by decide

theorem test_witness_FillWithARowEncodesIt :
    testPending.drainer = .idle ∧ testPending.qf = true ∧ waveLength (selectedTemplate testPending).length ≤ 126 ∧
    126 ≤ testPending.cfg.obCap := by decide

/-- F-5, F-4, F-1 with the largest `len`, and a state in which a fill is in progress. -/
theorem test_witness_FillRefusesTheLengthsOutsideItsContract :
    (testState.drainer = .idle ∧ testState.cfg.obCap < 127) ∧
    (testPending.drainer = .idle ∧ testPending.qf = true ∧ 125 ≤ testPending.cfg.obCap ∧
      125 < waveLength (selectedTemplate testPending).length) ∧
    (testState.drainer = .idle ∧ testState.qf = false ∧ 126 ≤ testState.cfg.obCap) ∧
    (fillEntry testState).drainer = .filling := by decide

/-- F-6. -/
theorem test_witness_EmptyRowFillsLikeTheIdlePattern :
    { testState with qf := true }.drainer = .idle ∧ { testState with qf := true }.qf = true ∧
    (∀ a, a < 42 → cell { testState with qf := true }.qs a = 0#8) ∧
    waveLength (selectedTemplate { testState with qf := true }).length ≤ 126 ∧
    126 ≤ { testState with qf := true }.cfg.obCap :=
  ⟨rfl, rfl, fun a _ => cell_zeroRow a, by decide, by decide⟩

/-- Every `OB_CAP` the constraint of R10 allows is at least 112. -/
theorem test_witness_FillsAfterResetAreIdle : ∀ n ∈ [0, 112], n ≤ State.reset.cfg.obCap := by
  intro n hn
  have h := template_fits State.reset.cfg .colorA
  simp only [List.mem_cons, List.not_mem_nil, or_false] at hn
  rcases hn with rfl | rfl <;> omega

theorem test_witness_EmitPushesTheWrittenLength :
    { testReady with wlen := 126#16 }.wlen.toNat ≤ testReady.cfg.obCap ∧
    125 < { testReady with wlen := 126#16 }.wlen.toNat ∧ testReady.ob.read 125 = some 0#16 := by decide

theorem test_witness_EmitStopsBeyondTheOutputBuffer :
    { testReady with wlen := 127#16 }.cfg.obCap < { testReady with wlen := 127#16 }.wlen.toNat := by decide

theorem testReady_inv : Inv testReady := ⟨by decide, by decide, .inl (by decide), rfl⟩

theorem test_witness_StepKeepsTheInvariant :
    Inv (presented .producer 0x60000000#32 0#32 testReady) ∧
    ∃ t, step (presented .producer 0x60000000#32 0#32 testReady) = .next t :=
  ⟨⟨by decide, by decide, .inl (by decide), rfl⟩, _, rfl⟩

theorem test_witness_NoStepWritesTheConfiguration :
    ∃ t, step (presented .consumer 0#32 0x9000007E#32 testPending) = .next t := ⟨_, rfl⟩

/-- For each clause, an operation that completes and writes the register or memory. -/
theorem test_witness_OnlyTheNamedOperationsWrite :
    (∃ t, exec (.setc 97 2) testState = .next t ∧ t.nb ≠ testState.nb) ∧
    (∃ t, exec .send testReady = .next t ∧ t.qf ≠ testReady.qf ∧ t.qs ≠ testReady.qs) ∧
    (∃ t, exec (.fill 126) testPending = .next t ∧ t.rb ≠ testPending.rb ∧ t.ob ≠ testPending.ob ∧
      t.events ≠ testPending.events) ∧
    (∃ t, exec (.tsel .blackB) testState = .next t ∧ t.tsel ≠ testState.tsel) ∧
    (∃ t, exec .gen testState = .next t ∧ t.wlen ≠ testState.wlen) :=
  ⟨⟨_, rfl, by decide⟩, ⟨_, rfl, by decide, by decide⟩, ⟨_, rfl, by decide, by decide, by decide⟩, ⟨_, rfl, by decide⟩,
    ⟨_, rfl, by decide⟩⟩

/-- Two states that agree and differ in what an empty slot and the received row hold. -/
theorem test_witness_DefinedResultsDoNotDependOnFreeValues :
    Agree testReady { testReady with qs := testRow, rb := testRow } ∧ specRefusal .gen testReady = none ∧
    ∃ s', exec .gen testReady = .next s' :=
  ⟨⟨rfl, rfl, fun _ => rfl, rfl, fun h => absurd h (by decide), rfl, fun _ => rfl, rfl, rfl, rfl, rfl⟩, by decide, _, rfl⟩

/-- A stall, a refusal and a completion, each in a state that meets the invariant. -/
theorem test_witness_EveryDefinedOperationCompletes :
    (Inv testPending ∧ specOutcome .send testPending = .stalls) ∧
    (Inv testState ∧ specRefusal (.fill 127) testState = some .lenOverCapacity) ∧
    (Inv testReady ∧ specRefusal .gen testReady = none ∧ ¬(Instr.gen = .send ∧ testReady.qf = true)) :=
  ⟨⟨⟨by decide, by decide, .inl (by decide), rfl⟩, by decide⟩, ⟨⟨by decide, by decide, .inl (by decide), rfl⟩, by decide⟩,
    testReady_inv, by decide, by decide⟩

theorem test_witness_RowBuildingCommutesWithFill :
    (Instr.setc 1 0 = .nbclr ∨ (∃ p c, Instr.setc 1 0 = .setc p c) ∨ ∃ p r, Instr.setc 1 0 = .setb p r) ∧
    ∃ u, exec (.fill 126) testPending = .next u :=
  ⟨.inr (.inl ⟨1, 0, rfl⟩), _, rfl⟩

theorem test_witness_CoincidentSendAndFill :
    (testReady.drainer = .idle ∧ waveLength (selectedTemplate testReady).length ≤ 126 ∧ 126 ≤ testReady.cfg.obCap ∧
      testReady.qf = false) ∧
    (testPending.drainer = .idle ∧ waveLength (selectedTemplate testPending).length ≤ 126 ∧
      126 ≤ testPending.cfg.obCap ∧ testPending.qf = true) := by decide

/-- For the clause about every schedule: `testStalled` serves both ports, and both commands leave them. -/
theorem test_witness_CoincidentSendAndFill_schedule :
    testStalled.cmds = [0x80000000#32] ∧ testStalled.reqs = [0x9000007E#32] ∧
    ∃ t, Host.Core.run Sys2Proof.core testStalled.sched.length testStalled = .next t ∧ t.cmds = [] ∧ t.reqs = [] :=
  ⟨rfl, rfl, _, rfl, rfl, rfl⟩

end Sys2Proof.Machine
end

section
/-! The scope family (spec/00_scope.md): where the spec does not refuse an operation, its result does not depend on a
free value, and it completes unless it is a SEND on a full slot.  Both rest on what the spec's `require` lines ask, said
once per operation. -/

namespace Sys2Proof.Machine

/-! ### What the `require` lines ask -/

theorem specRefusal_send_eq_none_iff (s : State) :
    specRefusal .send s = none ↔ s.qf = true ∨ s.nbHeld = true := by
  cases hq : s.qf <;> simp [specRefusal, hq]

/-- GEN needs a row and a template; the capacity it needs as well is in every configuration (R10, R174). -/
theorem specRefusal_gen_eq_none_iff (s : State) :
    specRefusal .gen s = none ↔ s.nbHeld = true ∧ s.tselHeld = true := by
  have hfit : waveFits (selectedTemplate s).length s.cfg.obCap = true :=
    decide_eq_true (template_fits s.cfg s.tsel)
  cases hn : s.nbHeld <;> simp [specRefusal, genRefusal, hn, hfit]

theorem specRefusal_fill_eq_none_iff (len : Nat) (s : State) :
    specRefusal (.fill len) s = none ↔
      len ≤ s.cfg.obCap ∧
        (s.qf = true → s.tselHeld = true ∧ waveLength (selectedTemplate s).length ≤ len) := by
  by_cases hcap : s.cfg.obCap < len
  · simp [specRefusal, fillRefusal, hcap]
  · cases hq : s.qf <;> cases ht : s.tselHeld <;>
      simp [specRefusal, fillRefusal, waveFits, hcap, Nat.not_lt.mp hcap, hq, ht]

/-! ### Agreement -/

section Agreement

variable {s t : State}

/-- States that agree select the same template once `TSEL` has been written (R45). -/
theorem Agree.selectedTemplate_eq (h : Agree s t) (ht : s.tselHeld = true) :
    selectedTemplate s = selectedTemplate t := by
  unfold selectedTemplate
  rw [h.cfg, h.tsel ht]

/-- The words on the bus are those of `OB`. -/
theorem Agree.busWords_eq (h : Agree s t) (len : Nat) : busWords s len = busWords t len := by
  have hword : busWord s = busWord t := by
    funext n
    rw [busWord, busWord, h.ob]
  rw [busWords, busWords, hword]

theorem Agree.setNozzle (h : Agree s t) (c : Coord) : Agree (setNozzle c s) (setNozzle c t) :=
  { h with nb := fun hn => by simp [h.nb hn] }

/-- SETC and SETB set one bit or none, by a test on their operands alone (R132, R141). -/
theorem setNozzle_if_agree (h : Agree s t) (inRange : Bool) (c : Coord) :
    Agree (if inRange then setNozzle c s else s) (if inRange then setNozzle c t else t) := by
  cases inRange with
  | false => exact h
  | true => exact h.setNozzle c

theorem Agree.pushWords (h : Agree s t) (len : Nat) : Agree (pushWords len s) (pushWords len t) :=
  { h with events := by simp [h.events, h.busWords_eq] }

/-- The hand-off carries the row over from `NB`, so `NB` must hold one; what it leaves in `NB` may differ (R213). -/
theorem Agree.handOff (h : Agree s t) (hn : s.nbHeld = true) : Agree (handOff s) (handOff t) :=
  { h with
    nbHeld := rfl
    nb := fun h' => absurd h' (by simp)
    qf := rfl
    qs := fun _ => h.nb hn }

theorem Agree.fillExit (h : Agree s t) (len : Nat) : Agree (fillExit len s) (fillExit len t) :=
  { h with
    drainer := rfl
    events := by simp [h.events, h.busWords_eq] }

theorem Agree.idleFill (h : Agree s t) (len : Nat) : Agree (afterIdleFill len s) (afterIdleFill len t) := by
  have hzero : Agree { s with ob := s.ob.zeroBelow len } { t with ob := t.ob.zeroBelow len } :=
    { h with ob := by simp only [h.ob] }
  exact hzero.fillExit len

/-- A row is encoded from `QS` with the selected template, so both must hold a value. -/
theorem Agree.rowFill (h : Agree s t) (len : Nat) (hq : s.qf = true) (ht : s.tselHeld = true) :
    Agree (afterRowFill len s) (afterRowFill len t) := by
  have hob : (afterRowFill len s).ob = (afterRowFill len t).ob := by
    simp only [afterRowFill_ob, h.selectedTemplate_eq ht, h.qs hq, h.ob]
  have htaken : Agree { s with rb := s.qs, qf := false, ob := (afterRowFill len s).ob }
      { t with rb := t.qs, qf := false, ob := (afterRowFill len t).ob } :=
    { h with qf := rfl, qs := fun hq' => absurd hq' Bool.false_ne_true, ob := hob }
  exact htaken.fillExit len

/-- To show that operation `i` keeps agreement, give what it answers on both sides. -/
theorem exec_agree_of_eq {i : Instr} {s' u v : State} (he : exec i s = .next s') (hs : exec i s = .next u)
    (ht : exec i t = .next v) (huv : Agree u v) : ∃ t', exec i t = .next t' ∧ Agree s' t' := by
  cases hs.symm.trans he
  exact ⟨v, ht, huv⟩

theorem exec_send_agree (h : Agree s t) {s' : State} (hr : specRefusal .send s = none)
    (he : exec .send s = .next s') : ∃ t', exec .send t = .next t' ∧ Agree s' t' := by
  refine exec_agree_of_eq he (exec_send s) (exec_send t) ?_
  rw [← h.qf]
  split
  next => exact h
  next hq => exact h.handOff (((specRefusal_send_eq_none_iff s).mp hr).resolve_left hq)

theorem exec_gen_agree (h : Agree s t) {s' : State} (hr : specRefusal .gen s = none) (he : exec .gen s = .next s') :
    ∃ t', exec .gen t = .next t' ∧ Agree s' t' := by
  obtain ⟨hn, ht⟩ := (specRefusal_gen_eq_none_iff s).mp hr
  refine exec_agree_of_eq he (exec_gen s) (exec_gen t) { h with wlen := ?_, ob := ?_ }
  all_goals simp only [h.selectedTemplate_eq ht, h.nb hn, h.ob]

theorem exec_fill_agree (h : Agree s t) {len : Nat} {s' : State} (hr : specRefusal (.fill len) s = none)
    (he : exec (.fill len) s = .next s') : ∃ t', exec (.fill len) t = .next t' ∧ Agree s' t' := by
  obtain ⟨hidle, hcap, ⟨hq, rfl⟩ | ⟨hq, hfit, rfl⟩⟩ := exec_fill_cases he
  all_goals
    have hidle' := h.drainer ▸ hidle
    have hcap' := h.cfg ▸ hcap
    have hq' := h.qf ▸ hq
  · exact ⟨_, exec_fill_idle hidle' hq' hcap', h.idleFill len⟩
  · obtain ⟨-, hrow⟩ := (specRefusal_fill_eq_none_iff len s).mp hr
    obtain ⟨ht, -⟩ := hrow hq
    have hfit' := h.selectedTemplate_eq ht ▸ hfit
    exact ⟨_, exec_fill_row hidle' hq' hcap' hfit', h.rowFill len hq ht⟩

theorem exec_emit_agree (h : Agree s t) {s' : State} (he : exec .emit s = .next s') :
    ∃ t', exec .emit t = .next t' ∧ Agree s' t' := by
  obtain ⟨hle, rfl⟩ := exec_emit_cases he
  rw [h.wlen, h.cfg] at hle
  exact ⟨_, exec_emit_of_le hle, h.wlen ▸ h.pushWords _⟩

end Agreement

/-- Settles O57: operation by operation, what the `require` lines ask for is what the operation reads. -/
theorem definedResultsDoNotDependOnFreeValues : Obligations.DefinedResultsDoNotDependOnFreeValues := by
  intro i s t s' h hr he
  cases i with
  | nbclr =>
    exact exec_agree_of_eq he (exec_nbclr s) (exec_nbclr t) { h with nbHeld := rfl, nb := fun _ => rfl }
  | setc p color =>
    exact exec_agree_of_eq he (exec_setc p color s) (exec_setc p color t) (setNozzle_if_agree h _ _)
  | setb p row =>
    exact exec_agree_of_eq he (exec_setb p row s) (exec_setb p row t) (setNozzle_if_agree h _ _)
  | tsel c =>
    exact exec_agree_of_eq he (exec_tsel c s) (exec_tsel c t) { h with tselHeld := rfl, tsel := fun _ => rfl }
  | obclr =>
    exact exec_agree_of_eq he (exec_obclr s) (exec_obclr t) { h with ob := by simp only [h.ob, h.cfg] }
  | gen => exact exec_gen_agree h hr he
  | emit => exact exec_emit_agree h he
  | send => exact exec_send_agree h hr he
  | fill len => exact exec_fill_agree h hr he

/-! ### Completion -/

/-- `WLEN` stays inside the output buffer, because every template's waveform does (R10, R33). -/
theorem Inv.wlen_le_obCap {s : State} (hinv : Inv s) : s.wlen.toNat ≤ s.cfg.obCap := by
  obtain hzero | ⟨c, hlen⟩ := hinv.wlenIsLength
  · omega
  · rw [hlen]
    exact template_fits s.cfg c

/-- In a state of a run, `exec` completes an operation that the spec does not refuse, a stalled SEND included. -/
theorem exec_completes_of_specRefusal_eq_none {i : Instr} {s : State} (hinv : Inv s) (hr : specRefusal i s = none) :
    ∃ t, exec i s = .next t := by
  cases i with
  | nbclr => exact ⟨_, exec_nbclr s⟩
  | setc p color => exact ⟨_, exec_setc p color s⟩
  | setb p row => exact ⟨_, exec_setb p row s⟩
  | tsel c => exact ⟨_, exec_tsel c s⟩
  | obclr => exact ⟨_, exec_obclr s⟩
  | gen => exact ⟨_, exec_gen s⟩
  | emit => exact ⟨_, exec_emit_of_le hinv.wlen_le_obCap⟩
  | send => exact ⟨_, exec_send s⟩
  | fill len =>
    obtain ⟨hcap, hrow⟩ := (specRefusal_fill_eq_none_iff len s).mp hr
    cases hq : s.qf with
    | false => exact ⟨_, exec_fill_idle hinv.drainerIdle hq hcap⟩
    | true => exact ⟨_, exec_fill_row hinv.drainerIdle hq hcap (hrow hq).2⟩

theorem specOutcome_of_specRefusal_eq_some {i : Instr} {s : State} {r : SpecRefusal}
    (hr : specRefusal i s = some r) : specOutcome i s = .refused r := by
  have hst : specStalls i s = false := by
    by_contra hst
    rw [specRefusal_of_stalls (by simpa using hst)] at hr
    cases hr
  simp [specOutcome, hst, hr]

theorem specOutcome_of_exec {i : Instr} {s t : State} (hst : ¬(i = .send ∧ s.qf = true))
    (hr : specRefusal i s = none) (he : exec i s = .next t) : specOutcome i s = .completes t := by
  have hst' : specStalls i s = false := by rwa [← Bool.not_eq_true, specStalls_iff]
  simp [specOutcome, hst', hr, he, outcomeOfRun]

/-- In a state of a run every refusal is one of the `require` lines: `undefinedBehaviour` is never the reason. -/
theorem specOutcome_refused_iff {i : Instr} {s : State} (hinv : Inv s) (r : SpecRefusal) :
    specOutcome i s = .refused r ↔ specRefusal i s = some r := by
  refine ⟨fun ho => ?_, specOutcome_of_specRefusal_eq_some⟩
  cases hr : specRefusal i s with
  | some r' =>
    rw [specOutcome_of_specRefusal_eq_some hr] at ho
    cases ho
    rfl
  | none =>
    exfalso
    by_cases hst : i = .send ∧ s.qf = true
    · rw [specOutcome_stalls.mpr hst] at ho
      cases ho
    · obtain ⟨t, he⟩ := exec_completes_of_specRefusal_eq_none hinv hr
      rw [specOutcome_of_exec hst hr he] at ho
      cases ho

/-- Settles O58: the stall from the law of `specOutcome`, refusal and completion from `exec` completing under the
invariant wherever no `require` line fails. -/
theorem everyDefinedOperationCompletes : Obligations.EveryDefinedOperationCompletes := by
  intro i s hinv
  refine ⟨specOutcome_stalls, exec_of_stalls, specOutcome_refused_iff hinv, fun hr hst => ?_⟩
  obtain ⟨t, he⟩ := exec_completes_of_specRefusal_eq_none hinv hr
  exact ⟨t, he, specOutcome_of_exec hst hr he⟩

end Sys2Proof.Machine
end

section
/-! The state family (spec/10_state.md): nothing writes the configuration, and the operations that build the row in
`NB` commute with FILL, which neither reads nor writes `NB`. -/

namespace Sys2Proof.Machine

/-! ### The configuration -/

/-- FILL takes one of its two ways of completing, and neither writes the configuration. -/
theorem exec_fill_cfg {len : Nat} {s t : State} (h : exec (.fill len) s = .next t) : t.cfg = s.cfg := by
  obtain ⟨-, -, ⟨-, rfl⟩ | ⟨-, -, rfl⟩⟩ := exec_fill_cases h
  · exact afterIdleFill_cfg len s
  · exact afterRowFill_cfg len s

/-- No operation writes the template memory or the capacity (R31, R41, R76). -/
theorem exec_cfg {i : Instr} {s t : State} (h : exec i s = .next t) : t.cfg = s.cfg := by
  cases i with
  | nbclr => cases (exec_nbclr s).symm.trans h; rfl
  | setc p color =>
    cases (exec_setc p color s).symm.trans h
    split <;> rfl
  | setb p row =>
    cases (exec_setb p row s).symm.trans h
    split <;> rfl
  | tsel c => cases (exec_tsel c s).symm.trans h; rfl
  | obclr => cases (exec_obclr s).symm.trans h; rfl
  | gen => cases (exec_gen s).symm.trans h; rfl
  | emit =>
    obtain ⟨-, rfl⟩ := exec_emit_cases h
    exact pushWords_cfg _ s
  | send =>
    cases (exec_send s).symm.trans h
    split <;> rfl
  | fill len => exact exec_fill_cfg h

/-- Settles O55: a step serves a port or performs one operation, and neither writes the configuration. -/
theorem noStepWritesTheConfiguration : Obligations.NoStepWritesTheConfiguration := by
  intro s t h
  obtain ⟨cmds, reqs, sched, rfl | ⟨i, hi⟩⟩ := step_cases h
  · rfl
  · have hcfg := exec_cfg hi
    exact hcfg

/-! ### Building a row -/

/-- The state with `NB` changed by `f`, and by `g` whether `NB` holds a value: all that NBCLR, SETC and SETB do. -/
def updateNb (f : Row → Row) (g : Bool → Bool) (s : State) : State :=
  { s with nb := f s.nb, nbHeld := g s.nbHeld }

/-- What SETC and SETB do where the test on their operands passes or fails: one bit of `NB` set, or nothing
(R132, R141). -/
theorem setNozzle_if_eq_updateNb (inRange : Bool) (c : Coord) :
    ∃ f g, ∀ s, (if inRange then setNozzle c s else s) = updateNb f g s := by
  cases inRange with
  | false => exact ⟨id, id, fun _ => rfl⟩
  | true => exact ⟨fun d => orCell d c.byteIndex c.mask, id, fun _ => rfl⟩

/-- NBCLR, SETC and SETB each change `NB` alone, and in the same way in every state: the range tests read the operands
only (R130, R132, R141). -/
theorem exec_eq_updateNb {i : Instr} (hi : i = .nbclr ∨ (∃ p c, i = .setc p c) ∨ ∃ p r, i = .setb p r) :
    ∃ f g, ∀ s, exec i s = .next (updateNb f g s) := by
  obtain rfl | ⟨p, color, rfl⟩ | ⟨p, row, rfl⟩ := hi
  · exact ⟨fun _ => zeroRow, fun _ => true, exec_nbclr⟩
  · obtain ⟨f, g, hfg⟩ := setNozzle_if_eq_updateNb (colorInRange p color.val) (colorCoord p.toNat color.val)
    exact ⟨f, g, fun s => by rw [exec_setc, hfg]⟩
  · obtain ⟨f, g, hfg⟩ := setNozzle_if_eq_updateNb (blackInRange p) (blackCoord p.toNat row.val)
    exact ⟨f, g, fun s => by rw [exec_setb, hfg]⟩

/-- FILL neither reads nor writes `NB`: it takes its row from `QS` (R71, R256). -/
theorem exec_fill_updateNb {len : Nat} {s u : State} (f : Row → Row) (g : Bool → Bool)
    (h : exec (.fill len) s = .next u) :
    exec (.fill len) (updateNb f g s) = .next (updateNb f g u) := by
  obtain ⟨hidle, hcap, ⟨hq, rfl⟩ | ⟨hq, hfit, rfl⟩⟩ := exec_fill_cases h
  · exact exec_fill_idle (s := updateNb f g s) hidle hq hcap
  · exact exec_fill_row (s := updateNb f g s) hidle hq hcap hfit

/-- Settles O59: NBCLR, SETC and SETB are updates of `NB`, with which FILL commutes. -/
theorem rowBuildingCommutesWithFill : Obligations.RowBuildingCommutesWithFill := by
  intro i s u len hi hfill
  obtain ⟨f, g, hexec⟩ := exec_eq_updateNb hi
  exact ⟨updateNb f g s, updateNb f g u, hexec s, exec_fill_updateNb f g hfill, hexec u⟩

end Sys2Proof.Machine
end

section
/-! The memory family (spec/20_memory.md): every step keeps the invariant of the machine, each register and memory is
written by the operations the spec names alone, and EMIT stops beyond the output buffer. -/

namespace Sys2Proof.Machine

/-! ### The length ENC returns -/

/-- Every length ENC counts is already even: fourteen stages of the same number of cells (R186, R187). -/
theorem roundUpEven_waveLength (n : Nat) : roundUpEven (waveLength n) = waveLength n := by
  have heven : waveLength n % 2 = 0 := by unfold waveLength; omega
  simp [roundUpEven, heven]

/-- ENC returns the length of its template's waveform, whatever the row and the buffer (R186). -/
theorem enc_length (tp : List Word) (d : Row) (ob : Memory) : (enc tp d ob).1 = waveLength tp.length := by
  obtain ⟨hcur, -⟩ := encStages_spec tp d ⟨0, 0, 0#2, ob⟩ 14
  rw [← roundUpEven_waveLength, enc, hcur, Nat.zero_add, waveLength]

/-- `WLEN` has room for the length of every template's waveform (R10, R33). -/
theorem toNat_ofNat_waveLength (c : Config) (t : Cartridge) :
    (BitVec.ofNat 16 (waveLength (c.template t).length)).toNat = waveLength (c.template t).length := by
  have hfits : waveLength (c.template t).length ≤ c.obCap := template_fits c t
  have hcap := obCap_le c
  rw [BitVec.toNat_ofNat]
  exact Nat.mod_eq_of_lt (by omega)

/-! ### The invariant -/

section Invariant

variable {s t : State}

/-- The invariant speaks of `OB` through its form and its capacity alone. -/
theorem Inv.withOb (h : Inv s) {ob : Memory} (hwf : ob.wf = true) (hbelow : ob.below s.cfg.obCap = true) :
    Inv { s with ob := ob } :=
  { h with obCanonical := hwf, obInside := hbelow }

/-- Zeroing cells that exist keeps the invariant (R171, R232). -/
theorem Inv.zeroBelow (h : Inv s) {len : Nat} (hcap : len ≤ s.cfg.obCap) :
    Inv { s with ob := s.ob.zeroBelow len } :=
  h.withOb (Memory.wf_zeroBelow len h.obCanonical) (Memory.below_zeroBelow h.obInside hcap)

/-- Encoding a row with the selected template keeps the invariant, for every template's waveform fits (R70, R174). -/
theorem Inv.encode (h : Inv s) (d : Row) : Inv { s with ob := (enc (selectedTemplate s) d s.ob).2 } :=
  h.withOb (enc_wf h.obCanonical) (enc_below h.obInside (template_fits s.cfg s.tsel))

theorem Inv.setNozzle_if (h : Inv s) (inRange : Bool) (c : Coord) :
    Inv (if inRange then setNozzle c s else s) := by
  cases inRange with
  | false => exact h
  | true => exact { h with }

/-- A fill that ends leaves the drainer IDLE (R38). -/
theorem Inv.fillExit (h : Inv s) (len : Nat) : Inv (fillExit len s) := { h with drainerIdle := rfl }

/-- GEN latches the length ENC returned (R33, R170). -/
theorem exec_gen_inv (h : Inv s) (he : exec .gen s = .next t) : Inv t := by
  cases (exec_gen s).symm.trans he
  have hlen : (BitVec.ofNat 16 (enc (selectedTemplate s) s.nb s.ob).1).toNat =
      waveLength (s.cfg.template s.tsel).length := by
    rw [enc_length]
    exact toNat_ofNat_waveLength s.cfg s.tsel
  exact { h.encode s.nb with wlenIsLength := .inr ⟨s.tsel, hlen⟩ }

/-- FILL zeroes `len` cells, encodes the pending row over them if there is one, and ends (R230). -/
theorem exec_fill_inv (h : Inv s) {len : Nat} (he : exec (.fill len) s = .next t) : Inv t := by
  obtain ⟨-, hcap, ⟨-, rfl⟩ | ⟨-, -, rfl⟩⟩ := exec_fill_cases he
  · exact (h.zeroBelow hcap).fillExit len
  · have htaken : Inv { s with rb := s.qs, qf := false, ob := (afterRowFill len s).ob } :=
      { (h.zeroBelow hcap).encode s.qs with }
    exact htaken.fillExit len

/-- Every operation that completes keeps the invariant. -/
theorem exec_inv (h : Inv s) {i : Instr} (he : exec i s = .next t) : Inv t := by
  cases i with
  | nbclr => cases (exec_nbclr s).symm.trans he; exact { h with }
  | setc p color => cases (exec_setc p color s).symm.trans he; exact h.setNozzle_if _ _
  | setb p row => cases (exec_setb p row s).symm.trans he; exact h.setNozzle_if _ _
  | tsel c => cases (exec_tsel c s).symm.trans he; exact { h with }
  | obclr => cases (exec_obclr s).symm.trans he; exact h.zeroBelow le_rfl
  | gen => exact exec_gen_inv h he
  | emit =>
    obtain ⟨-, rfl⟩ := exec_emit_cases he
    exact { h with }
  | send =>
    cases (exec_send s).symm.trans he
    split
    · exact h
    · exact { h with }
  | fill len => exact exec_fill_inv h he

end Invariant

/-- Settles O52: what a step changes beside the ports is what one operation changes, and every operation keeps the
invariant, which does not speak of the ports. -/
theorem stepKeepsTheInvariant : Obligations.StepKeepsTheInvariant := by
  intro s t hinv h
  obtain ⟨cmds, reqs, sched, hstep⟩ := step_cases h
  have hports : Inv { s with cmds := cmds, reqs := reqs, sched := sched } := { hinv with }
  obtain rfl | ⟨i, hi⟩ := hstep
  · exact hports
  · exact exec_inv hports hi

/-! ### Which operation writes what -/

@[simp] theorem afterIdleFill_cmds (len : Nat) (s : State) : (afterIdleFill len s).cmds = s.cmds := rfl
@[simp] theorem afterIdleFill_reqs (len : Nat) (s : State) : (afterIdleFill len s).reqs = s.reqs := rfl
@[simp] theorem afterIdleFill_sched (len : Nat) (s : State) : (afterIdleFill len s).sched = s.sched := rfl
@[simp] theorem afterRowFill_cmds (len : Nat) (s : State) : (afterRowFill len s).cmds = s.cmds := rfl
@[simp] theorem afterRowFill_reqs (len : Nat) (s : State) : (afterRowFill len s).reqs = s.reqs := rfl
@[simp] theorem afterRowFill_sched (len : Nat) (s : State) : (afterRowFill len s).sched = s.sched := rfl

/-- Settles O56: operation by operation, the state after it is the state before it with the registers written that the
clauses name, so that every clause about another register has a false premise. -/
theorem onlyTheNamedOperationsWrite : Obligations.OnlyTheNamedOperationsWrite := by
  intro i s t h
  cases i with
  | nbclr => cases (exec_nbclr s).symm.trans h; simp
  | setc p color =>
    cases (exec_setc p color s).symm.trans h
    split <;> simp
  | setb p row =>
    cases (exec_setb p row s).symm.trans h
    split <;> simp
  | tsel c => cases (exec_tsel c s).symm.trans h; simp
  | obclr => cases (exec_obclr s).symm.trans h; simp
  | gen => cases (exec_gen s).symm.trans h; simp
  | emit =>
    obtain ⟨-, rfl⟩ := exec_emit_cases h
    simp
  | send =>
    cases (exec_send s).symm.trans h
    split
    next => simp
    next hfree => simp [hfree]
  | fill len =>
    obtain ⟨-, -, ⟨-, rfl⟩ | ⟨-, -, rfl⟩⟩ := exec_fill_cases h
    · simp
    · simp

/-! ### EMIT beyond the output buffer -/

/-- Settles O50: EMIT's one test fails. -/
theorem emitStopsBeyondTheOutputBuffer : Obligations.EmitStopsBeyondTheOutputBuffer := by
  intro s hbeyond
  show execEmit s = _
  rw [execEmit, if_neg (Nat.not_le.mpr hbeyond)]

end Sys2Proof.Machine
end

section
/-! The encoding family (spec/30_encoding.md): the words a synchronous row puts on the bus.  They are the closed form of
R189, so ENC is shown to leave it in `OB` first: the selector it carries from word to word is the closed form's, hence so
is each word it writes, hence each stage, and the whole walk. -/

namespace Sys2Proof.Machine

/-! ### The selector ENC carries (R178, R189) -/

/-- The selector after `n` transitions: 0 before the first, 1 at it, and doubled at each one after. -/
def selectorAfter (n : Nat) : Nat := if n = 0 then 0 else 2 ^ (n - 1)

/-- The number of transitions before word `i` of a stage. -/
def transitionsBefore (tp : List Word) (i : Nat) : Nat :=
  (List.range i).countP fun m => togAt tp m != togBefore tp m

theorem transitionsBefore_succ (tp : List Word) (i : Nat) :
    transitionsBefore tp (i + 1) =
      transitionsBefore tp i + if toggled (togBefore tp i) (togAt tp i) then 1 else 0 := by
  rw [transitionsBefore, List.range_succ, List.countP_append, List.countP_singleton]
  rfl

theorem selAt_eq_selectorAfter (tp : List Word) (i : Nat) :
    selAt tp i = selectorAfter (transitionsBefore tp (i + 1)) := by
  rw [transitionsBefore, List.countP_eq_length_filter]
  rfl

/-- Each word counts its transition into the selector (R178). -/
theorem nextSel_selectorAfter (n : Nat) (lastTog tog : BitVec 2) :
    nextSel (selectorAfter n) lastTog tog = selectorAfter (n + if toggled lastTog tog then 1 else 0) := by
  unfold nextSel
  split
  · cases n with
    | zero => rfl
    | succ n => simp [selectorAfter, pow_succ, mul_comm]
  · rfl

/-! ### One word -/

theorem closedWord_of_rowEmpty {d : Row} (hd : rowEmpty d = true) (tp : List Word) (j i : Nat) :
    closedWord tp d j i = 0#16 := by simp [closedWord, hd]

/-- The word of the algorithm under the closed form's selector is the word of the closed form (R183, R189). -/
theorem closedWord_of_not_rowEmpty {d : Row} (hd : rowEmpty d = false) (tp : List Word) (j i : Nat) :
    closedWord tp d j i = encodeWord d j (selAt tp i) (tp.getD i 0#16) := by
  simp [closedWord, encodeWord, hd, dataEnabled, dataBits, lineAsserted, line1, line2, line3, syncSelect, togAt]

/-- The loop stands before word `i` of a stage with the selector and the toggle state of the closed form; on an empty
row, whose encode reads neither, this asks nothing (R176, R185). -/
def AtWord (tp : List Word) (d : Row) (i : Nat) (e : EncLoop) : Prop :=
  rowEmpty d = false → e.sel = selectorAfter (transitionsBefore tp i) ∧ e.lastTog = togBefore tp i

/-- The body of the inner loop writes the closed form's word and stands before the next word. -/
theorem encBody_of_atWord {tp : List Word} {d : Row} {i : Nat} {e : EncLoop} (h : AtWord tp d i e) (j : Nat) :
    (encBody d j e (tp.getD i 0#16)).ob = e.ob.write e.cur (closedWord tp d j i) ∧
      AtWord tp d (i + 1) (encBody d j e (tp.getD i 0#16)) := by
  cases hd : rowEmpty d with
  | true =>
    rw [closedWord_of_rowEmpty hd]
    exact ⟨by simp [encBody, hd], fun hd' => absurd (hd.symm.trans hd') (by decide)⟩
  | false =>
    obtain ⟨hsel, hlast⟩ := h hd
    have hnext : nextSel e.sel e.lastTog (togField (tp.getD i 0#16)) = selAt tp i := by
      rw [hsel, hlast, selAt_eq_selectorAfter, transitionsBefore_succ]
      exact nextSel_selectorAfter _ _ _
    simp only [encBody, hd, Bool.false_eq_true, if_false, hnext, closedWord_of_not_rowEmpty hd]
    exact ⟨trivial, fun _ => ⟨selAt_eq_selectorAfter tp i, rfl⟩⟩

/-! ### One stage, and the whole walk -/

/-- The first `k` words of a stage are those of the closed form. -/
theorem encWords_read {tp : List Word} {d : Row} {e : EncLoop} (h : AtWord tp d 0 e) (j : Nat) {k : Nat}
    (hk : k ≤ tp.length) :
    AtWord tp d k ((tp.take k).foldl (encBody d j) e) ∧
      ∀ i, i < k → ((tp.take k).foldl (encBody d j) e).ob.read (e.cur + i) = some (closedWord tp d j i) := by
  induction k with
  | zero => exact ⟨h, fun i hi => absurd hi (Nat.not_lt_zero i)⟩
  | succ k ih =>
    obtain ⟨hat, hread⟩ := ih (by omega)
    obtain ⟨hcur, -⟩ := encWords_spec d j (tp.take k) e
    rw [List.length_take_of_le (by omega)] at hcur
    obtain ⟨hob, hat'⟩ := encBody_of_atWord hat j
    rw [List.take_succ_eq_append_getElem hk, List.foldl_append, List.foldl_cons, List.foldl_nil,
      ← List.getD_eq_getElem tp 0#16 hk]
    refine ⟨hat', fun i hi => ?_⟩
    rw [hob, Memory.read_write, hcur]
    obtain hi | rfl := Nat.lt_succ_iff_lt_or_eq.mp hi
    · rw [if_neg (by omega), hread i hi]
    · rw [if_pos rfl]

/-- A stage leaves the closed form in its word cells and every other cell as it was (R184, R189). -/
theorem encStage_read (tp : List Word) (d : Row) (e : EncLoop) (j n : Nat) :
    (encStage tp d e j).ob.read n =
      if e.cur ≤ n ∧ n < e.cur + tp.length then some (closedWord tp d j (n - e.cur)) else e.ob.read n := by
  split
  next hn =>
    have hstart : AtWord tp d 0 { e with sel := 0, lastTog := 0#2 } := fun _ => ⟨rfl, rfl⟩
    obtain ⟨-, hread⟩ := encWords_read hstart j le_rfl
    have hcell := hread (n - e.cur) (by omega)
    rwa [List.take_length, Nat.add_sub_cancel' hn.1] at hcell
  next hn =>
    obtain ⟨-, -, -, hframe⟩ := encStage_spec tp d e j
    exact hframe n (by omega)

/-- The cells of stage `k`, by quotient and remainder of the index (R189). -/
theorem stage_cell_iff (len k n : Nat) :
    (k * (len + 8) ≤ n ∧ n < k * (len + 8) + len) ↔ n / (len + 8) = k ∧ n % (len + 8) < len := by
  have hdm := Nat.div_add_mod' n (len + 8)
  constructor
  · rintro ⟨hlo, hhi⟩
    have hq : n / (len + 8) = k := Nat.div_eq_of_lt_le hlo (by rw [Nat.succ_mul]; omega)
    rw [hq] at hdm
    exact ⟨hq, by omega⟩
  · rintro ⟨rfl, hr⟩
    omega

/-- The first `k` stages leave the closed form in their word cells and every other cell as it was. -/
theorem encStages_read (tp : List Word) (d : Row) {e : EncLoop} (he : e.cur = 0) (k n : Nat) :
    ((List.range k).foldl (encStage tp d) e).ob.read n =
      if n / (tp.length + 8) < k ∧ n % (tp.length + 8) < tp.length then
        some (closedWord tp d (n / (tp.length + 8)) (n % (tp.length + 8)))
      else e.ob.read n := by
  induction k with
  | zero => simp
  | succ k ih =>
    obtain ⟨hcur, -⟩ := encStages_spec tp d e k
    rw [he, Nat.zero_add] at hcur
    rw [List.range_succ, List.foldl_append, List.foldl_cons, List.foldl_nil, encStage_read, hcur, ih]
    simp only [stage_cell_iff]
    by_cases hk : n / (tp.length + 8) = k
    · have hsub : n - k * (tp.length + 8) = n % (tp.length + 8) := by
        rw [← hk, Nat.mod_eq_sub_div_mul]
      simp [hk, hsub]
    · have hlt : n / (tp.length + 8) < k + 1 ↔ n / (tp.length + 8) < k := by omega
      simp [hk, hlt]

/-- R189 for ENC: a cell holds the closed form's word, or what it held before where the closed form has none. -/
theorem enc_read (tp : List Word) (d : Row) (ob : Memory) (n : Nat) :
    (enc tp d ob).2.read n = (closedCell tp d n).or (ob.read n) := by
  rw [enc, encStages_read tp d rfl, closedCell]
  split <;> rfl

/-! ### The synchronous row -/

theorem execAll_cons_of_next {i : Instr} {s t : State} (h : exec i s = .next t) (is : List Instr) :
    execAll (i :: is) s = execAll is t := by
  simp only [execAll, h]

/-- On a zeroed buffer the encode leaves the closed form with zero in the gaps (R171, R184). -/
theorem enc_zeroBelow_read (tp : List Word) (d : Row) (ob : Memory) {cap n : Nat} (hn : n < cap) :
    (enc tp d (ob.zeroBelow cap)).2.read n = some ((closedCell tp d n).getD 0#16) := by
  rw [enc_read, Memory.read_zeroBelow, if_pos hn]
  cases closedCell tp d n <;> rfl

/-- The state OBCLR and GEN leave, `WLEN` given as the waveform's length. -/
def afterObclrGen (s : State) : State :=
  { s with
    ob := (enc (selectedTemplate s) s.nb (s.ob.zeroBelow s.cfg.obCap)).2
    wlen := BitVec.ofNat 16 (waveLength (selectedTemplate s).length) }

theorem execAll_obclr_gen (s : State) (is : List Instr) :
    execAll (.obclr :: .gen :: is) s = execAll is (afterObclrGen s) := by
  rw [execAll_cons_of_next (exec_obclr s), execAll_cons_of_next (exec_gen _), enc_length]
  rfl

theorem afterObclrGen_wlen_toNat (s : State) :
    (afterObclrGen s).wlen.toNat = waveLength (selectedTemplate s).length :=
  toNat_ofNat_waveLength s.cfg s.tsel

/-- Settles O51: EMIT pushes the cells of the zeroed and encoded buffer, as many as GEN latched. -/
theorem synchronousRowReachesTheBus : Obligations.SynchronousRowReachesTheBus := by
  intro s
  have hfits : waveLength (selectedTemplate s).length ≤ s.cfg.obCap := template_fits s.cfg s.tsel
  have hlen := afterObclrGen_wlen_toNat s
  have hemit : exec .emit (afterObclrGen s) = .next (pushWords _ (afterObclrGen s)) :=
    exec_emit_of_le (hlen.trans_le hfits)
  have hwords := busWords_eq (s := afterObclrGen s) (len := waveLength (selectedTemplate s).length)
    (f := fun n => (closedCell (selectedTemplate s) s.nb n).getD 0#16)
    fun n hn => enc_zeroBelow_read _ _ _ (hn.trans_le hfits)
  refine ⟨_, (execAll_obclr_gen s _).trans (execAll_cons_of_next hemit []), rfl, ?_⟩
  rw [pushWords_events, hlen, hwords, List.map_map]
  rfl

end Sys2Proof.Machine
end

section
/-! The addresser family (spec/40_addresser.md): SETC and SETB OR one bit into `NB`, at a coordinate that the lookup
ROMs give and that has a closed form.  The ROMs are compared with their closed forms entry by entry, and the rest is
arithmetic on the nozzle index. -/

namespace Sys2Proof.Machine

/-! ### One bit of `NB` -/

/-- The mask of a coordinate has one bit, unless it has none because `bitIndex` is above 7 (R131, R135). -/
theorem Coord.getLsbD_mask (c : Coord) {b : Nat} (hb : b < 8) : c.mask.getLsbD b = decide (b = c.bitIndex) := by
  rw [Coord.mask, BitVec.getLsbD_ofNat, Nat.testBit_two_pow, decide_eq_true hb, Bool.true_and]
  exact decide_eq_decide.mpr eq_comm

/-- A read-modify-write of one cell sets the bit at the coordinate and clears none (R134, R146). -/
theorem getLsbD_cell_orCell (d : Row) (c : Coord) {a b : Nat} (ha : a < 42) (hb : b < 8) :
    (cell (orCell d c.byteIndex c.mask) a).getLsbD b =
      ((cell d a).getLsbD b || decide (a = c.byteIndex ∧ b = c.bitIndex)) := by
  rw [cell_orCell _ _ _ _ ha]
  split
  next hcell => simp [hcell, c.getLsbD_mask hb]
  next hcell => simp [Ne.symm hcell]

/-- An operation that writes at a coordinate changes `NB` alone, and in `NB` the one bit (R134, R146). -/
theorem exec_sets_one_bit {i : Instr} {s : State} {c : Coord} (h : exec i s = .next (setNozzle c s)) :
    ∃ nb' : Row, exec i s = .next { s with nb := nb' } ∧
      ∀ a b, a < 42 → b < 8 → (cell nb' a).getLsbD b =
        ((cell s.nb a).getLsbD b || decide (a = c.byteIndex ∧ b = c.bitIndex)) :=
  ⟨orCell s.nb c.byteIndex c.mask, h, fun _ _ ha hb => getLsbD_cell_orCell s.nb c ha hb⟩

/-! ### The range tests (R132, R141) -/

theorem colorInRange_iff (p : Int) (color : Nat) : colorInRange p color = true ↔ color ≤ 2 ∧ 0 ≤ p ∧ p ≤ 112 := by
  simp [colorInRange, and_assoc]

theorem blackInRange_iff (p : Int) : blackInRange p = true ↔ 0 ≤ p ∧ p ≤ 167 := by
  simp [blackInRange]

theorem exec_setc_of_le (s : State) {p : Nat} {color : Fin 4} (hp : p ≤ 112) (hcolor : color.val ≤ 2) :
    exec (.setc (p : Int) color) s = .next (setNozzle (colorCoord p color.val) s) := by
  rw [exec_setc, if_pos ((colorInRange_iff _ _).mpr (by omega)), Int.toNat_natCast]

theorem exec_setc_of_out_of_range (s : State) {p : Int} {color : Fin 4} (h : p < 0 ∨ 112 < p ∨ color.val = 3) :
    exec (.setc p color) s = .next s := by
  rw [exec_setc, if_neg (mt (colorInRange_iff _ _).mp (by omega))]

theorem exec_setb_of_le (s : State) {p : Nat} (row : Fin 2) (hp : p ≤ 167) :
    exec (.setb (p : Int) row) s = .next (setNozzle (blackCoord p row.val) s) := by
  rw [exec_setb, if_pos ((blackInRange_iff _).mpr (by omega)), Int.toNat_natCast]

/-! ### The closed forms of the lookup ROMs (R136, R145) -/

/-- Each colour's columns rise by 5 modulo 14 from a start of its own (R136). -/
theorem colorByteOrder_eq : ∀ color < 3, ∀ n < 14,
    colorByteOrder color n = ([8, 11, 0].getD color 0 + 5 * n) % 14 := by decide

/-- The groups repeat every 6 entries, a pair of bits stands in each 6, and the first 12 entries have order 1 (R145). -/
theorem nozzleInfo_eq : ∀ jn < 24,
    nozzleInfo jn = ⟨2 - jn % 6 / 2, [0, 4, 2, 6].getD (jn / 6) 0 + jn % 2, 1 - jn / 12⟩ := by decide

/-- Bit 1 of a black bit index is set in the entries of row 1 and in no other (R144, R149). -/
theorem nozzleInfo_bit_div_two_mod_two : ∀ jn < 24, (nozzleInfo jn).bit / 2 % 2 = jn / 12 := by decide

/-- The colour coordinate in the closed form of R136. -/
theorem colorCoord_eq (p : Nat) {color : Nat} (hcolor : color ≤ 2) :
    colorCoord p color = ⟨14 * color + ([8, 11, 0].getD color 0 + 5 * (p % 14)) % 14, p / 14⟩ := by
  rw [colorCoord, colorByteOrder_eq color (by omega) (p % 14) (by omega), Nat.add_comm]

/-- The translation by 168 for row 1 moves 12 entries on in `NozzleInfo` and keeps the place in the entry (R140,
R142). -/
theorem blackCoord_eq_nozzleInfo (p row : Nat) :
    blackCoord p row =
      ⟨14 * (nozzleInfo (p / 14 + 12 * row)).c +
          blackByteOrder (nozzleInfo (p / 14 + 12 * row)).order (13 - p % 14),
        (nozzleInfo (p / 14 + 12 * row)).bit⟩ := by
  have hentry : (p + 168 * row) / 14 = p / 14 + 12 * row := by omega
  have hplace : (p + 168 * row) % 14 = p % 14 := by omega
  rw [blackCoord, blackCoordOf, hentry, hplace]

/-- The black coordinate in the closed form of R145. -/
theorem blackCoord_eq {p row : Nat} (hp : p ≤ 167) (hrow : row ≤ 1) :
    blackCoord p row =
      ⟨14 * (2 - (p / 14 + 12 * row) % 6 / 2) + blackByteOrder (1 - row) (13 - p % 14),
        [0, 4, 2, 6].getD ((p / 14 + 12 * row) / 6) 0 + (p / 14 + 12 * row) % 2⟩ := by
  have horder : (p / 14 + 12 * row) / 12 = row := by omega
  rw [blackCoord_eq_nozzleInfo, nozzleInfo_eq _ (by omega), horder]

/-- The bit index of a black coordinate tells its row (R149). -/
theorem blackCoord_bitIndex_div_two_mod_two {p row : Nat} (hp : p ≤ 167) (hrow : row ≤ 1) :
    (blackCoord p row).bitIndex / 2 % 2 = row := by
  rw [blackCoord_eq_nozzleInfo, nozzleInfo_bit_div_two_mod_two _ (by omega)]
  omega

/-! ### The obligations -/

/-- Settles O12: SETC passes its range test and writes at its coordinate, which has the closed form. -/
theorem setcSetsOneBit : Obligations.SetcSetsOneBit := by
  intro s p color hp hcolor
  have hbit := exec_sets_one_bit (exec_setc_of_le s (by omega : p ≤ 112) hcolor)
  rwa [colorCoord_eq p hcolor] at hbit

/-- Settles O16: SETB passes its range test and writes at its coordinate, which has the closed form. -/
theorem setbSetsOneBit : Obligations.SetbSetsOneBit := by
  intro s p row hp
  have hbit := exec_sets_one_bit (exec_setb_of_le s row hp)
  rwa [blackCoord_eq hp (by omega)] at hbit

/-- Settles O20: the two writes are the tables' entries for nozzle 0, and a coordinate shared by the rows would have a
bit index of both. -/
theorem blackRowsNeverShareACoordinate : Obligations.BlackRowsNeverShareACoordinate := by
  refine ⟨fun s => ⟨exec_setb_of_le s (p := 0) 0 (by decide), exec_setb_of_le s (p := 0) 1 (by decide)⟩, ?_⟩
  intro p p' hp hp' hshared
  have hrow0 := blackCoord_bitIndex_div_two_mod_two hp (by decide : 0 ≤ 1)
  have hrow1 := blackCoord_bitIndex_div_two_mod_two hp' (by decide : 1 ≤ 1)
  rw [hshared, hrow1] at hrow0
  exact absurd hrow0 (by decide)

/-- Settles O11: NBCLR leaves the zero row, whatever the row was. -/
theorem nbclrClearsEveryCell : Obligations.NbclrClearsEveryCell := by
  have hdecode : decode 0x10000000#32 = .ok .nbclr := by decide
  exact ⟨hdecode, fun s => ⟨zeroRow, exec_nbclr s, fun a _ => cell_zeroRow a, exec_nbclr _⟩⟩

/-- Settles O15: both indices fail the range test. -/
theorem setcBoundaryTests : Obligations.SetcBoundaryTests := fun s =>
  ⟨exec_setc_of_out_of_range s (.inl (by decide)), exec_setc_of_out_of_range s (.inr (.inl (by decide)))⟩

end Sys2Proof.Machine
end

section
/-! The encoder family (spec/42_encoder.md): ENC leaves the closed form of R189 in `OB` (`enc_read`), so each statement
about one cell is a statement about the closed form: at a word position it has a word, whose bits are read off, and at a
gap position it has none.  The word-serial machine of R190 is tied to ENC by a simulation, word by word and stage by
stage. -/

namespace Sys2Proof.Machine

/-! ### The cells of the closed form (R184, R189) -/

/-- The stage and the place in the stage of a cell, from its index. -/
theorem stage_index_div_mod (len j : Nat) {r : Nat} (hr : r < len + 8) :
    (j * (len + 8) + r) / (len + 8) = j ∧ (j * (len + 8) + r) % (len + 8) = r := by
  constructor
  · rw [Nat.mul_comm, Nat.mul_add_div (by omega), Nat.div_eq_of_lt hr, Nat.add_zero]
  · rw [Nat.mul_add_mod', Nat.mod_eq_of_lt hr]

theorem closedCell_word (tp : List Word) (d : Row) {j i : Nat} (hj : j < 14) (hi : i < tp.length) :
    closedCell tp d (j * (tp.length + 8) + i) = some (closedWord tp d j i) := by
  obtain ⟨hdiv, hmod⟩ := stage_index_div_mod tp.length j (r := i) (by omega)
  rw [closedCell, hdiv, hmod, if_pos ⟨hj, hi⟩]

theorem closedCell_gap (tp : List Word) (d : Row) (j : Nat) {k : Nat} (hk : k < 8) :
    closedCell tp d (j * (tp.length + 8) + tp.length + k) = none := by
  obtain ⟨-, hmod⟩ := stage_index_div_mod tp.length j (r := tp.length + k) (by omega)
  rw [Nat.add_assoc, closedCell, hmod, if_neg (by omega)]

/-- Every cell of the closed form of an empty row is zero (R176). -/
theorem closedCell_of_rowEmpty {d : Row} (hd : rowEmpty d = true) (tp : List Word) (n : Nat) :
    closedCell tp d n = none ∨ closedCell tp d n = some 0#16 := by
  rw [closedCell, closedWord_of_rowEmpty hd]
  exact (ite_eq_or_eq _ _ _).symm

/-- Which cells the closed form gives does not depend on the row, so one row's covers another's (R286). -/
theorem closedCell_or_closedCell (tp : List Word) (d d' : Row) (n : Nat) (x : Option Word) :
    (closedCell tp d' n).or ((closedCell tp d n).or x) = (closedCell tp d' n).or x := by
  unfold closedCell
  split <;> rfl

theorem enc_read_word (tp : List Word) (d : Row) (ob : Memory) {j i : Nat} (hj : j < 14) (hi : i < tp.length) :
    (enc tp d ob).2.read (j * (tp.length + 8) + i) = some (closedWord tp d j i) := by
  rw [enc_read, closedCell_word tp d hj hi, Option.some_or]

theorem enc_read_gap (tp : List Word) (d : Row) (ob : Memory) (j : Nat) {k : Nat} (hk : k < 8) :
    (enc tp d ob).2.read (j * (tp.length + 8) + tp.length + k) =
      ob.read (j * (tp.length + 8) + tp.length + k) := by
  rw [enc_read, closedCell_gap tp d j hk, Option.none_or]

/-- An encode over the buffer another encode with the same template left is the encode over the buffer before it. -/
theorem enc_enc (tp : List Word) (d d' : Row) {ob : Memory} (hwf : ob.wf = true) :
    (enc tp d' (enc tp d ob).2).2 = (enc tp d' ob).2 := by
  apply Memory.ext_of_read (enc_wf (enc_wf hwf)) (enc_wf hwf)
  intro n
  simp only [enc_read, closedCell_or_closedCell]

/-- GEN, with the length it latches given as the waveform's (R170, R186). -/
theorem exec_gen_waveLength (s : State) :
    exec .gen s = .next { s with
      ob := (enc (selectedTemplate s) s.nb s.ob).2,
      wlen := BitVec.ofNat 16 (waveLength (selectedTemplate s).length) } := by
  rw [exec_gen, enc_length]

/-! ### The bits of a word (R177, R181 to R183) -/

section Bits

variable (d : Row) (j sel : Nat) (w : Word)

/-- `keep` passes bits 15:4, but F3 (bit 10) and F5 (bit 11) where the stage suppresses them. -/
theorem getLsbD_keepMask {b : Nat} (hb : b < 16) :
    (keepMask d j).getLsbD b =
      (decide (4 ≤ b) && !(decide (b = 10) && suppressF3 d j) && !(decide (b = 11) && suppressF5 d j)) := by
  unfold keepMask
  generalize suppressF3 d j = f3
  generalize suppressF5 d j = f5
  revert f3 f5 b
  decide

theorem getLsbD_ite_zero (p : Prop) [Decidable p] (v : Word) (b : Nat) :
    (if p then v else 0#16).getLsbD b = (decide p && v.getLsbD b) := by
  split
  next h => simp [h]
  next h => simp [h]

/-- A bit of an output word: what `keep` passes of the template word, a data line in bits 2:0 of a data-enabled word,
and CSYNC in bit 3. -/
theorem getLsbD_encodeWord {b : Nat} (hb : b < 16) :
    (encodeWord d j sel w).getLsbD b =
      (w.getLsbD b && (keepMask d j).getLsbD b ||
        dataEnabled w && (lineAsserted (line1 d j) sel && decide (b = 0) ||
          lineAsserted (line2 d j) sel && decide (b = 1) || lineAsserted (line3 d j) sel && decide (b = 2)) ||
        syncSelect w (syncBit j) && decide (b = 3)) := by
  have hbits : ∀ b < 16, (0x0001#16).getLsbD b = decide (b = 0) ∧ (0x0002#16).getLsbD b = decide (b = 1) ∧
      (0x0004#16).getLsbD b = decide (b = 2) ∧ (0x0008#16).getLsbD b = decide (b = 3) := by decide
  obtain ⟨h0, h1, h2, h3⟩ := hbits b hb
  simp only [encodeWord, dataBits, BitVec.getLsbD_or, BitVec.getLsbD_and, getLsbD_ite_zero, Bool.decide_eq_true, h0,
    h1, h2, h3]

/-- Bits 15:4 of an output word are what `keep` passes (R180, R183). -/
theorem getLsbD_encodeWord_of_ge {b : Nat} (hlow : 4 ≤ b) (hb : b < 16) :
    (encodeWord d j sel w).getLsbD b = (w.getLsbD b && (keepMask d j).getLsbD b) := by
  have h0 : b ≠ 0 := by omega
  have h1 : b ≠ 1 := by omega
  have h2 : b ≠ 2 := by omega
  have h3 : b ≠ 3 := by omega
  simp [getLsbD_encodeWord d j sel w hb, h0, h1, h2, h3]

/-- `keep` passes none of bits 3:0: bits 2:0 of an output word are the data lines, and bit 3 is CSYNC (R181, R182). -/
theorem getLsbD_encodeWord_of_lt {b : Nat} (hb : b < 4) :
    (encodeWord d j sel w).getLsbD b =
      (dataEnabled w && (lineAsserted (line1 d j) sel && decide (b = 0) ||
          lineAsserted (line2 d j) sel && decide (b = 1) || lineAsserted (line3 d j) sel && decide (b = 2)) ||
        syncSelect w (syncBit j) && decide (b = 3)) := by
  have hkeep : (keepMask d j).getLsbD b = false := by
    rw [getLsbD_keepMask d j (by omega), decide_eq_false (by omega), Bool.false_and, Bool.false_and]
  rw [getLsbD_encodeWord d j sel w (by omega), hkeep, Bool.and_false, Bool.false_or]

theorem dataEnabled_eq_decide : dataEnabled w = decide (w.extractLsb' 0 2 ≠ 0#2) := (decide_not ..).symm

theorem lineAsserted_eq_decide (c : Byte) : lineAsserted c sel = decide (c.toNat &&& sel = 0) := rfl

end Bits

/-- The closed form's word at a template word, for a row that is not empty. -/
theorem closedWord_of_getElem? {tp : List Word} {i : Nat} {w : Word} (hw : tp[i]? = some w) {d : Row}
    (hd : rowEmpty d = false) (j : Nat) : closedWord tp d j i = encodeWord d j (selAt tp i) w := by
  rw [closedWord_of_not_rowEmpty hd, List.getD_eq_getElem?_getD, hw, Option.getD_some]

/-- What ENC leaves at a template word, for a row that is not empty (R183). -/
theorem enc_read_encodeWord {tp : List Word} {i : Nat} {w : Word} (hw : tp[i]? = some w) {d : Row}
    (hd : rowEmpty d = false) (ob : Memory) {j : Nat} (hj : j < 14) :
    (enc tp d ob).2.read (j * (tp.length + 8) + i) = some (encodeWord d j (selAt tp i) w) := by
  rw [enc_read_word tp d ob hj (List.getElem?_eq_some_iff.mp hw).1, closedWord_of_getElem? hw hd]

/-- In an empty row every stage suppresses both auxiliary lines (R176, R177). -/
theorem suppress_of_rowEmpty {d : Row} (hd : rowEmpty d = true) {j : Nat} (hj : j < 14) :
    suppressF3 d j = true ∧ suppressF5 d j = true := by
  have hcell := (rowEmpty_iff d).mp hd
  have hpower : power d j = 0#8 := by
    rw [power, line1, line2, line3, hcell j (by omega), hcell (14 + j) (by omega), hcell (28 + j) (by omega)]
    rfl
  simp [suppressF3, suppressF5, hpower]

/-- F3 and F5 of every word of a stage, in an empty row too (R177). -/
theorem closedWord_auxiliary_lines {tp : List Word} {i : Nat} {w : Word} (hw : tp[i]? = some w) (d : Row) {j : Nat}
    (hj : j < 14) :
    (closedWord tp d j i).getLsbD 10 = (w.getLsbD 10 && !suppressF3 d j) ∧
      (closedWord tp d j i).getLsbD 11 = (w.getLsbD 11 && !suppressF5 d j) := by
  cases hd : rowEmpty d with
  | true =>
    obtain ⟨h3, h5⟩ := suppress_of_rowEmpty hd hj
    simp [closedWord_of_rowEmpty hd, h3, h5]
  | false =>
    rw [closedWord_of_getElem? hw hd, getLsbD_encodeWord_of_ge _ _ _ _ (by decide) (by decide),
      getLsbD_encodeWord_of_ge _ _ _ _ (by decide) (by decide), getLsbD_keepMask _ _ (by decide),
      getLsbD_keepMask _ _ (by decide)]
    simp

/-! ### The word-serial machine (R190) -/

/-- The word-serial machine before word `i` of stage `j`, with what ENC carries there. -/
def serialAt (d : Row) (j i : Nat) (e : EncLoop) : Serial where
  j := j
  i := i
  cur := e.cur
  sel := e.sel
  lastTog := e.lastTog
  empty := rowEmpty d
  keep := keepMask d j
  syncbit := syncBit j
  ob := e.ob

/-- What ENC carries into a stage: the selector and the toggle state start at 0 (R185). -/
def EncLoop.atStageStart (e : EncLoop) : EncLoop := { e with sel := 0, lastTog := 0#2 }

theorem serialRun_eq_iterate (tp : List Word) (d : Row) (k : Nat) (x : Serial) :
    serialRun tp d k x = (serialStep tp d)^[k] x := by
  induction k generalizing x with
  | zero => rfl
  | succ k ih => exact ih (serialStep tp d x)

/-- One step on a word is the body of ENC's inner loop. -/
theorem serialWord_serialAt (d : Row) (j i : Nat) (e : EncLoop) (w : Word) :
    serialWord d w (serialAt d j i e) = serialAt d j (i + 1) (encBody d j e w) := by
  cases hd : rowEmpty d with
  | true => simp [serialWord, encBody, serialAt, hd]
  | false => simp [serialWord, encBody, serialAt, hd, encodeWord]

theorem serialStep_of_word {tp : List Word} {i : Nat} (hi : i < tp.length) (d : Row) {j : Nat} (hj : j < 14)
    (e : EncLoop) :
    serialStep tp d (serialAt d j i e) = serialAt d j (i + 1) (encBody d j e tp[i]) := by
  have hword : tp[(serialAt d j i e).i]? = some tp[i] := List.getElem?_eq_getElem hi
  have hrunning : ¬ 14 ≤ (serialAt d j i e).j := Nat.not_le.mpr hj
  rw [← serialWord_serialAt, serialStep, if_neg hrunning, hword]

/-- The stage-end step moves the cursor over the gap and starts the next stage. -/
theorem serialStep_of_stage_end (tp : List Word) (d : Row) {j : Nat} (hj : j < 14) (e : EncLoop) :
    serialStep tp d (serialAt d j tp.length e) =
      serialAt d (j + 1) 0 { e with cur := e.cur + 8 }.atStageStart := by
  have hnone : tp[(serialAt d j tp.length e).i]? = none := List.getElem?_length tp
  have hrunning : ¬ 14 ≤ (serialAt d j tp.length e).j := Nat.not_le.mpr hj
  rw [serialStep, if_neg hrunning, hnone]
  rfl

/-- `k` steps from the start of a stage are the first `k` words of the stage. -/
theorem serialStep_iterate_words (tp : List Word) (d : Row) {j : Nat} (hj : j < 14) (e : EncLoop) {k : Nat}
    (hk : k ≤ tp.length) :
    (serialStep tp d)^[k] (serialAt d j 0 e) = serialAt d j k ((tp.take k).foldl (encBody d j) e) := by
  induction k with
  | zero => rfl
  | succ k ih =>
    rw [Function.iterate_succ_apply', ih (by omega), serialStep_of_word hk d hj, List.take_succ_eq_append_getElem hk,
      List.foldl_append, List.foldl_cons, List.foldl_nil]

/-- One step for each word and one for the stage end are a stage of ENC. -/
theorem serialStep_iterate_stage (tp : List Word) (d : Row) {j : Nat} (hj : j < 14) (e : EncLoop) :
    (serialStep tp d)^[tp.length + 1] (serialAt d j 0 e.atStageStart) =
      serialAt d (j + 1) 0 (encStage tp d e j).atStageStart := by
  rw [Function.iterate_succ_apply', serialStep_iterate_words tp d hj _ le_rfl, List.take_length,
    serialStep_of_stage_end tp d hj]
  rfl

/-- The machine after `k` stages stands where ENC does. -/
theorem serialStep_iterate_stages (tp : List Word) (d : Row) (e : EncLoop) {k : Nat} (hk : k ≤ 14) :
    (serialStep tp d)^[k * (tp.length + 1)] (serialAt d 0 0 e.atStageStart) =
      serialAt d k 0 ((List.range k).foldl (encStage tp d) e).atStageStart := by
  induction k with
  | zero => rw [Nat.zero_mul]; rfl
  | succ k ih =>
    rw [Nat.succ_mul, Nat.add_comm, Function.iterate_add_apply, ih (by omega), serialStep_iterate_stage tp d hk,
      List.range_succ, List.foldl_append, List.foldl_cons, List.foldl_nil]

/-! ### The obligations -/

/-- Settles O24: the closed form's word where it has one, and elsewhere what the cell held. -/
theorem encoderMatchesTheClosedForm : Obligations.EncoderMatchesTheClosedForm := by
  intro tp d ob n
  rw [enc_read]
  cases closedCell tp d n <;> rfl

/-- Settles O25: after fourteen stages the machine holds what ENC carries out of the last; ENC's rounding to even leaves
the cursor as it is. -/
theorem wordSerialMachineMatchesTheEncoder : Obligations.WordSerialMachineMatchesTheEncoder := by
  intro tp d ob
  have hrun : serialRun tp d (14 * (tp.length + 1)) (serialStart d ob) = serialAt d 14 0 _ :=
    (serialRun_eq_iterate _ _ _ _).trans (serialStep_iterate_stages tp d ⟨0, 0, 0#2, ob⟩ le_rfl)
  have hcur := (encStages_spec tp d ⟨0, 0, 0#2, ob⟩ 14).1
  rw [Nat.zero_add] at hcur
  rw [hrun]
  exact ⟨rfl, hcur.trans (enc_length tp d ob).symm, rfl⟩

/-- Settles O26: ENC's length is that of its template's waveform. -/
theorem encodedLengthIsIndependentOfTheRow : Obligations.EncodedLengthIsIndependentOfTheRow :=
  ⟨enc_length, by decide, by decide, by decide, by decide⟩

/-- Settles O29: GEN is ENC on `NB` and the selected template, whose waveform's length fits `WLEN`. -/
theorem genEncodesTheNozzleBuffer : Obligations.GenEncodesTheNozzleBuffer := by
  intro s
  exact ⟨_, _, exec_gen_waveLength s, toNat_ofNat_waveLength s.cfg s.tsel, encoderMatchesTheClosedForm _ _ _⟩

/-- Settles O30: GEN's buffer is ENC's, and an empty row's closed form holds no word but zero. -/
theorem emptyRowEncodesToZeros : Obligations.EmptyRowEncodesToZeros := by
  intro s hzero
  have hempty : rowEmpty s.nb = true := (rowEmpty_iff s.nb).mpr hzero
  refine ⟨_, _, exec_gen_waveLength s, toNat_ofNat_waveLength s.cfg s.tsel, ?_,
    fun j k _ hk => enc_read_gap _ _ _ j hk, ?_⟩
  · intro j i hj hi
    rw [enc_read_word _ _ _ hj hi, closedWord_of_rowEmpty hempty]
  · intro hpre n hn
    obtain hnone | hsome := closedCell_of_rowEmpty hempty (selectedTemplate s) n
    · rw [enc_read, hnone, Option.none_or, hpre n hn]
    · rw [enc_read, hsome, Option.some_or]

/-- Settles O31: the closed form has no word at a gap position. -/
theorem gapCellsKeepWhatTheyHeld : Obligations.GapCellsKeepWhatTheyHeld :=
  fun tp d ob j _ _ hk => enc_read_gap tp d ob j hk

/-- Settles O32: the two suppression tests are on the low and the high nibble of the three cells together. -/
theorem auxiliaryPowerLinesAreSuppressed : Obligations.AuxiliaryPowerLinesAreSuppressed := by
  intro tp d ob j i w hj hw
  obtain ⟨h3, h5⟩ := closedWord_auxiliary_lines hw d hj
  refine ⟨_, enc_read_word tp d ob hj (List.getElem?_eq_some_iff.mp hw).1, ?_, ?_⟩
  · rw [h3, suppressF3, decide_not]
    rfl
  · rw [h5, suppressF5, decide_not]
    rfl

/-- Settles O33: bits 2:0 are the data lines of the three cells, under the closed form's selector. -/
theorem dataLinesAreActiveLow : Obligations.DataLinesAreActiveLow := by
  intro tp d ob j i w hd hj hw
  have hbit := fun (b : Nat) (hb : b < 4) => getLsbD_encodeWord_of_lt d j (selAt tp i) w hb
  refine ⟨_, enc_read_encodeWord hw hd ob hj, ?_, ?_, ?_⟩
  · exact (hbit 0 (by decide)).trans (by simp [dataEnabled_eq_decide, lineAsserted_eq_decide, line1])
  · exact (hbit 1 (by decide)).trans (by simp [dataEnabled_eq_decide, lineAsserted_eq_decide, line2])
  · exact (hbit 2 (by decide)).trans (by simp [dataEnabled_eq_decide, lineAsserted_eq_decide, line3])

/-- Settles O34: no data line stands in bit 3, only the sync-select bit of the stage. -/
theorem syncFollowsTheSelectBit : Obligations.SyncFollowsTheSelectBit := by
  intro tp d ob j i w hd hj hw
  refine ⟨_, enc_read_encodeWord hw hd ob hj, ?_⟩
  have hsync : (encodeWord d j (selAt tp i) w).getLsbD 3 = w.getLsbD (syncBit j) := by
    rw [getLsbD_encodeWord_of_lt d j _ w (by decide)]
    simp [syncSelect]
  rw [hsync, syncBit, apply_ite w.getLsbD]

/-- Settles O35: `keep` passes every one of these bits. -/
theorem strobeAndClockBitsPassThrough : Obligations.StrobeAndClockBitsPassThrough := by
  intro tp d ob j i w hd hj hw
  refine ⟨_, enc_read_encodeWord hw hd ob hj, fun b hlow hb h10 h11 => ?_⟩
  have hkeep : (keepMask d j).getLsbD b = true := by simp [getLsbD_keepMask d j hb, hlow, h10, h11]
  rw [getLsbD_encodeWord_of_ge d j _ w hlow hb, hkeep, Bool.and_true]

/-- Settles O38: the second encode covers the first; a second GEN has the same row and template, and ENC's length depends
on the template alone. -/
theorem oneObclrPerJobIsEnough : Obligations.OneObclrPerJobIsEnough := by
  refine ⟨fun tp d d' ob hwf => enc_enc tp d d' hwf, ?_⟩
  intro s t hwf h
  cases (exec_gen_waveLength s).symm.trans h
  rw [exec_gen_waveLength]
  simp only [selectedTemplate, enc_enc _ _ _ hwf]

/-- Settles O28: the constraint the configuration carries, for the template asked for and for any template at all. -/
theorem configuredWaveformsFit : Obligations.ConfiguredWaveformsFit := by
  intro c t
  have hfits := template_fits c t
  exact ⟨hfits, by omega, obCap_le c⟩

end Sys2Proof.Machine
end

section
/-! The queue family (spec/43_queue.md): TRYRECV leaves the slot free, and a FILL that takes an empty row encodes zeros
over the buffer it has just zeroed.  The last is an equality of states, also where `OB` is not in canonical form, so it
rests on writes of zero that leave the list as it is, and not on what the cells read. -/

namespace Sys2Proof.Machine

/-! ### TRYRECV (R216) -/

/-- After TRYRECV no row is pending: it took the row, or there was none. -/
theorem tryRecv_qf (s : State) : (tryRecv s).2.qf = false := by
  cases hq : s.qf with
  | true => rw [tryRecv_full hq]
  | false => rw [tryRecv_free hq, hq]

/-- Settles O41: the two ways of TRYRECV, the second of them after either. -/
theorem tryRecvTakesThePendingRow : Obligations.TryRecvTakesThePendingRow := by
  intro s
  refine ⟨tryRecv_full, tryRecv_free, ?_⟩
  rw [tryRecv_free (tryRecv_qf s)]

/-! ### Writing zero where zero stands (R176, R232) -/

/-- Writing zero to a cell of an ascending run of zeros changes nothing, whatever follows the run. -/
theorem Memory.write_zero_of_mem_zeros {l : List Nat} (hl : l.Pairwise (· < ·)) (m : Memory) {n : Nat} (hn : n ∈ l) :
    Memory.write (l.map (fun k => (k, 0#16)) ++ m) n 0#16 = l.map (fun k => (k, 0#16)) ++ m := by
  induction l with
  | nil => cases hn
  | cons k l ih =>
    obtain ⟨hk, hl'⟩ := List.pairwise_cons.mp hl
    rw [List.map_cons, List.cons_append, Memory.write]
    obtain rfl | hn' := List.mem_cons.mp hn
    · rw [if_neg (Nat.lt_irrefl _), if_pos rfl]
    · have hlt := hk n hn'
      rw [if_neg (by omega), if_neg (by omega), ih hl' hn']

theorem Memory.write_zero_zeroBelow (m : Memory) {len n : Nat} (hn : n < len) :
    (m.zeroBelow len).write n 0#16 = m.zeroBelow len :=
  Memory.write_zero_of_mem_zeros List.pairwise_lt_range _ (List.mem_range.mpr hn)

section EmptyRow

variable {d : Row} {ob : Memory} {len : Nat} (hd : rowEmpty d = true) (hzero : ∀ n < len, ob.write n 0#16 = ob)
include hd hzero

/-- The words of a stage of an empty row are zeros, which change nothing inside the zeroed range. -/
theorem encWords_ob_of_rowEmpty (j : Nat) (ws : List Word) {e : EncLoop} (he : e.ob = ob)
    (hfits : e.cur + ws.length ≤ len) : (ws.foldl (encBody d j) e).ob = ob := by
  induction ws generalizing e with
  | nil => exact he
  | cons w ws ih =>
    rw [List.length_cons] at hfits
    have hbody : encBody d j e w = { e with ob := ob, cur := e.cur + 1 } := by
      rw [encBody, if_pos hd, he, hzero e.cur (by omega)]
    rw [List.foldl_cons, hbody]
    exact ih rfl (by simp only; omega)

theorem encStages_ob_of_rowEmpty (tp : List Word) {e : EncLoop} (he : e.ob = ob) {k : Nat}
    (hfits : e.cur + k * (tp.length + 8) ≤ len) : ((List.range k).foldl (encStage tp d) e).ob = ob := by
  induction k with
  | zero => exact he
  | succ k ih =>
    rw [Nat.succ_mul] at hfits
    obtain ⟨hcur, -⟩ := encStages_spec tp d e k
    rw [List.range_succ, List.foldl_append, List.foldl_cons, List.foldl_nil]
    exact encWords_ob_of_rowEmpty hd hzero k tp (ih (by omega)) (by simp only [hcur]; omega)

/-- ENC of an empty row leaves a buffer as it is whose cells under the waveform are zero (R176). -/
theorem enc_ob_of_rowEmpty (tp : List Word) (hfits : waveLength tp.length ≤ len) : (enc tp d ob).2 = ob :=
  encStages_ob_of_rowEmpty hd hzero tp rfl ((Nat.zero_add _).trans_le hfits)

end EmptyRow

/-! ### FILL of an empty row -/

/-- A FILL that takes an empty row leaves what a FILL with the slot free leaves, and the row in `RB` (R211, R234). -/
theorem afterRowFill_of_rowEmpty {s : State} {len : Nat} (hd : rowEmpty s.qs = true)
    (hfits : waveLength (selectedTemplate s).length ≤ len) :
    afterRowFill len s = { afterIdleFill len { s with qf := false } with rb := s.qs } := by
  have hob := enc_ob_of_rowEmpty hd (fun _ => s.ob.write_zero_zeroBelow) (selectedTemplate s) hfits
  rw [afterRowFill, hob]
  rfl

/-- Settles O47: both FILLs complete, and the encode of the empty row changes nothing in the zeroed buffer. -/
theorem emptyRowFillsLikeTheIdlePattern : Obligations.EmptyRowFillsLikeTheIdlePattern := by
  intro s len hidle hq hcells hfits hcap
  have hrow := exec_fill_row hidle hq hcap hfits
  rw [afterRowFill_of_rowEmpty ((rowEmpty_iff s.qs).mpr hcells) hfits] at hrow
  exact ⟨_, exec_fill_idle (s := { s with qf := false }) hidle rfl hcap, hrow⟩

end Sys2Proof.Machine
end

section
/-! The drainer family (spec/44_drainer.md): what a FILL leaves is its buffer zeroed, and then encoded if there was a row,
so each cell below `len` is known, and with them the buffer handed over. -/

namespace Sys2Proof.Machine

/-- The end of a fill whose buffer is known: the event records the buffer, and the drainer is IDLE, as it was before the
request (R236, R257). -/
theorem fillExit_of_read {s : State} {len : Nat} {f : Nat → Word} (hidle : s.drainer = .idle)
    (hread : ∀ n, n < len → s.ob.read n = some (f n)) :
    fillExit len s = { s with events := s.events ++ [.fillDone ((List.range len).map f)] } := by
  rw [fillExit, busWords_eq hread, ← hidle]

/-- ENC writes nothing beyond its waveform (R186). -/
theorem enc_read_of_waveLength_le {tp : List Word} (d : Row) (ob : Memory) {n : Nat} (hn : waveLength tp.length ≤ n) :
    (enc tp d ob).2.read n = ob.read n := by
  obtain ⟨-, -, -, hframe⟩ := encStages_spec tp d ⟨0, 0, 0#2, ob⟩ 14
  exact hframe n (.inr ((Nat.zero_add _).trans_le hn))

/-- Settles O44: the zeroed buffer is what is handed over, and zeroing reaches no cell from `len` on. -/
theorem fillWithoutARowLeavesTheIdlePattern : Obligations.FillWithoutARowLeavesTheIdlePattern := by
  intro s len hidle hq hcap
  have hzero : ∀ n, n < len → (s.ob.zeroBelow len).read n = some 0#16 := fun n hn => by
    rw [Memory.read_zeroBelow, if_pos hn]
  refine ⟨s.ob.zeroBelow len, ?_, hzero, fun n hn => ?_⟩
  · rw [exec_fill_idle hidle hq hcap, afterIdleFill,
      fillExit_of_read (s := { s with ob := s.ob.zeroBelow len }) hidle hzero, List.map_const', List.length_range]
  · rw [Memory.read_zeroBelow, if_neg hn.not_gt]

/-- Settles O45: below `len` the row is encoded over zeros, and from `len` on, which is beyond the waveform, neither the
zeroing nor ENC writes. -/
theorem fillWithARowEncodesIt : Obligations.FillWithARowEncodesIt := by
  intro s len hidle hq hfits hcap
  have hrow : ∀ n, n < len → (enc (selectedTemplate s) s.qs (s.ob.zeroBelow len)).2.read n =
      some ((closedCell (selectedTemplate s) s.qs n).getD 0#16) := fun n hn => enc_zeroBelow_read _ _ _ hn
  refine ⟨_, ?_, hrow, fun n hn => ?_⟩
  · exact (exec_fill_row hidle hq hcap hfits).trans (congrArg Host.Outcome.next (fillExit_of_read hidle hrow))
  · rw [enc_read_of_waveLength_le _ _ (hfits.trans hn), Memory.read_zeroBelow, if_neg hn.not_gt]

end Sys2Proof.Machine
end

section
/-! The command word (spec/30_encoding.md R110, R119, R120): a word is read as an operation exactly when its four fields
are the operation's and the operands fit.  From that the two round trips and the table of R119 follow, once a word is
known to be its four fields. -/

namespace Sys2Proof

/-! ### The four fields of a word (R110) -/

theorem field_and (v w : Command) (hi lo : Nat) : field (v &&& w) hi lo = field v hi lo &&& field w hi lo := by
  simp only [field, BitVec.toNat_and, Nat.and_div_two_pow, Nat.and_mod_two_pow]

/-- A word is the sum of its fields, each at its place. -/
theorem toNat_eq_fields (w : Command) :
    w.toNat = fieldOpc w * 2 ^ 28 + fieldZ w * 2 ^ 18 + fieldSelf w * 2 ^ 16 + fieldImm w := by
  have hw := w.isLt
  simp only [fieldOpc, fieldZ, fieldSelf, fieldImm, field]
  omega

/-- Two words are equal when their fields are. -/
theorem command_eq_iff_fields (v w : Command) :
    v = w ↔ fieldOpc v = fieldOpc w ∧ fieldZ v = fieldZ w ∧ fieldSelf v = fieldSelf w ∧ fieldImm v = fieldImm w := by
  refine ⟨fun h => by simp [h], fun ⟨hopc, hz, hself, himm⟩ => BitVec.eq_of_toNat_eq ?_⟩
  rw [toNat_eq_fields v, toNat_eq_fields w, hopc, hz, hself, himm]

theorem fieldSelf_lt (w : Command) : fieldSelf w < 4 := Nat.mod_lt _ (by decide)

theorem fieldImm_lt (w : Command) : fieldImm w < 65536 := Nat.mod_lt _ (by decide)

/-! ### Operands and their codes (R98, R100) -/

theorem signed16_imm16 {p : Int} (hp : indexFits p = true) : signed16 (imm16 p) = p := by
  simp only [indexFits, Bool.and_eq_true, decide_eq_true_eq] at hp
  unfold signed16 imm16
  split <;> omega

theorem imm16_signed16 {n : Nat} (hn : n < 65536) : imm16 (signed16 n) = n := by
  unfold signed16 imm16
  split <;> omega

theorem indexFits_signed16 {n : Nat} (hn : n < 65536) : indexFits (signed16 n) = true := by
  simp only [indexFits, Bool.and_eq_true, decide_eq_true_eq]
  unfold signed16
  split <;> omega

theorem lengthFits_iff (len : Nat) : lengthFits len = true ↔ len < 65536 := by
  simp only [lengthFits, decide_eq_true_eq]
  omega

@[simp] theorem Cartridge.ofCode_code (t : Cartridge) : Cartridge.ofCode t.code = t := by cases t <;> rfl

theorem Cartridge.code_ofCode : ∀ n < 4, (Cartridge.ofCode n).code = n := by decide

/-! ### Decoding, by the fields (R110, R119) -/

/-- The fields of `w` are those of operation `i`, whose operands fit. -/
structure HasFields (w : Command) (i : Instr) : Prop where
  wellFormed : i.wellFormed = true
  opc : fieldOpc w = i.opcode
  z : fieldZ w = 0
  self : fieldSelf w = i.selfField
  imm : fieldImm w = i.immField

theorem bare_eq_ok_iff (w : Command) (i j : Instr) :
    bare w i = .ok j ↔ fieldSelf w = 0 ∧ fieldImm w = 0 ∧ i = j := by
  unfold bare
  split
  next hself => simp [hself]
  next hself =>
    split
    next himm => simp [himm]
    next himm => simp_all

/-- The decoder reads the operation back from its fields. -/
theorem decode_of_hasFields {w : Command} {i : Instr} (h : HasFields w i) : decode w = .ok i := by
  obtain ⟨hwf, hopc, hz, hself, himm⟩ := h
  rw [decode, if_neg (not_not.mpr hz), decodeFields, hopc]
  cases i with
  | nbclr | obclr | gen | emit | send => exact (bare_eq_ok_iff w _ _).mpr ⟨hself, himm, rfl⟩
  | setc p color =>
    simp [Instr.opcode, hself, himm, Instr.selfField, Instr.immField, signed16_imm16 hwf]
  | setb p row =>
    simp [Instr.opcode, hself, himm, Instr.selfField, Instr.immField, signed16_imm16 hwf, row.is_le]
  | tsel | fill => simp [Instr.opcode, hself, himm, Instr.selfField, Instr.immField]

/-- An operation without operands has zero in both operand fields. -/
theorem hasFields_of_bare {w : Command} {i j : Instr} (h : bare w i = .ok j) (hwf : i.wellFormed = true)
    (hopc : fieldOpc w = i.opcode) (hz : fieldZ w = 0) (hself : i.selfField = 0) (himm : i.immField = 0) :
    HasFields w j := by
  obtain ⟨hself', himm', rfl⟩ := (bare_eq_ok_iff w i j).mp h
  exact ⟨hwf, hopc, hz, hself'.trans hself.symm, himm'.trans himm.symm⟩

theorem hasFields_of_decodeFields {w : Command} {i : Instr} (hz : fieldZ w = 0) (h : decodeFields w = .ok i) :
    HasFields w i := by
  have hself := fieldSelf_lt w
  have himm := fieldImm_lt w
  unfold decodeFields at h
  split at h
  next hopc => exact hasFields_of_bare h rfl hopc hz rfl rfl
  next hopc =>
    cases h
    exact ⟨indexFits_signed16 himm, hopc, hz, (Nat.mod_eq_of_lt hself).symm, (imm16_signed16 himm).symm⟩
  next hopc =>
    split at h
    next hrow =>
      cases h
      exact ⟨indexFits_signed16 himm, hopc, hz, (Nat.mod_eq_of_lt hrow).symm, (imm16_signed16 himm).symm⟩
    next => cases h
  next hopc =>
    split at h
    next => cases h
    next himm0 =>
      cases h
      exact ⟨rfl, hopc, hz, (Cartridge.code_ofCode _ hself).symm, not_not.mp himm0⟩
  next hopc => exact hasFields_of_bare h rfl hopc hz rfl rfl
  next hopc => exact hasFields_of_bare h rfl hopc hz rfl rfl
  next hopc => exact hasFields_of_bare h rfl hopc hz rfl rfl
  next hopc => exact hasFields_of_bare h rfl hopc hz rfl rfl
  next hopc =>
    split at h
    next => cases h
    next hself0 =>
      cases h
      exact ⟨(lengthFits_iff _).mpr himm, hopc, hz, not_not.mp hself0, rfl⟩
  next => cases h

/-- A word is read as an operation exactly when the fields are the operation's and the operands fit. -/
theorem decode_eq_ok_iff (w : Command) (i : Instr) : decode w = .ok i ↔ HasFields w i := by
  refine ⟨fun h => ?_, decode_of_hasFields⟩
  unfold decode at h
  split at h
  next => cases h
  next hz => exact hasFields_of_decodeFields (not_not.mp hz) h

/-! ### The encoder (R110) -/

theorem Instr.opcode_lt (i : Instr) : i.opcode < 16 := by cases i <;> simp [Instr.opcode]

theorem Instr.selfField_lt (i : Instr) : i.selfField < 4 := by
  cases i with
  | setc p color => exact color.isLt
  | setb p row => exact row.isLt.trans (by decide)
  | tsel t => cases t <;> decide
  | nbclr | obclr | gen | emit | send | fill => simp [Instr.selfField]

theorem Instr.immField_lt {i : Instr} (h : i.wellFormed = true) : i.immField < 65536 := by
  cases i with
  | setc p color => exact Laws.OpcodeField.imm16_lt p
  | setb p row => exact Laws.OpcodeField.imm16_lt p
  | fill len => exact (lengthFits_iff len).mp h
  | nbclr | obclr | gen | emit | send | tsel => simp [Instr.immField]

/-- The encoder puts each field at its place. -/
theorem hasFields_encode {i : Instr} (h : i.wellFormed = true) : HasFields (encode i) i := by
  have hopc := i.opcode_lt
  have hself := i.selfField_lt
  have himm := i.immField_lt h
  obtain ⟨hopc', hz'⟩ := Laws.OpcodeField.of_bounds i hopc hself himm
  refine ⟨h, hopc', hz', ?_, ?_⟩ <;>
  · simp only [fieldSelf, fieldImm, field, encode, BitVec.toNat_ofNat]
    omega

/-- Settles O1: the decoder reads exactly the fields, and the encoder writes them. -/
theorem decodeOfEncodeIsTheInstruction : Obligations.DecodeOfEncodeIsTheInstruction :=
  fun _ h => decode_of_hasFields (hasFields_encode h)

/-- Settles O2: the word and the encoder's word have the same four fields. -/
theorem encodeOfDecodeIsTheWord : Obligations.EncodeOfDecodeIsTheWord := by
  intro w i h
  have hw := (decode_eq_ok_iff w i).mp h
  have he := hasFields_encode hw.wellFormed
  refine ⟨(command_eq_iff_fields _ _).mpr ⟨?_, ?_, ?_, ?_⟩, hw.wellFormed⟩
  · rw [he.opc, hw.opc]
  · rw [he.z, hw.z]
  · rw [he.self, hw.self]
  · rw [he.imm, hw.imm]

/-! ### The table of R119 -/

/-- The row of an operation in the table. -/
def Instr.pattern : Instr → Pattern
  | .nbclr => ⟨"NBCLR", 0x10000000#32, 0xFFFFFFFF#32⟩
  | .setc _ _ => ⟨"SETC", 0x20000000#32, 0xFFFC0000#32⟩
  | .setb _ _ => ⟨"SETB", 0x30000000#32, 0xFFFE0000#32⟩
  | .tsel _ => ⟨"TSEL", 0x40000000#32, 0xFFFCFFFF#32⟩
  | .obclr => ⟨"OBCLR", 0x50000000#32, 0xFFFFFFFF#32⟩
  | .gen => ⟨"GEN", 0x60000000#32, 0xFFFFFFFF#32⟩
  | .emit => ⟨"EMIT", 0x70000000#32, 0xFFFFFFFF#32⟩
  | .send => ⟨"SEND", 0x80000000#32, 0xFFFFFFFF#32⟩
  | .fill _ => ⟨"FILL", 0x90000000#32, 0xFFFF0000#32⟩

theorem Instr.pattern_mem (i : Instr) : i.pattern ∈ patterns := by cases i <;> simp [Instr.pattern, patterns]

theorem Instr.pattern_mnemonic (i : Instr) : i.pattern.mnemonic = i.mnemonic := by cases i <;> rfl

/-- The table names no operation twice. -/
theorem pattern_eq_of_mnemonic_eq :
    ∀ r ∈ patterns, ∀ r' ∈ patterns, r.mnemonic = r'.mnemonic → r = r' := by decide

/-- A masked comparison is one in each field. -/
theorem and_eq_iff_fields (w m v : Command) :
    w &&& m = v ↔ fieldOpc w &&& fieldOpc m = fieldOpc v ∧ fieldZ w &&& fieldZ m = fieldZ v ∧
      fieldSelf w &&& fieldSelf m = fieldSelf v ∧ fieldImm w &&& fieldImm m = fieldImm v := by
  simp only [command_eq_iff_fields, fieldOpc, fieldZ, fieldSelf, fieldImm, field_and]

/-- A full mask keeps the whole field. -/
theorem field_and_full (w : Command) {hi lo k : Nat} (hk : hi + 1 - lo = k) :
    field w hi lo &&& (2 ^ k - 1) = field w hi lo := by
  rw [field, hk, Nat.and_two_pow_sub_one_eq_mod, Nat.mod_mod]

/-- Every row of the table compares `OPC` and `Z` whole, asks for zero in `Z`, and masks the operand fields. -/
theorem pattern_matches_iff {r : Pattern} (hr : r ∈ patterns) (w : Command) :
    w &&& r.mask = r.value ↔ fieldOpc w = fieldOpc r.value ∧ fieldZ w = 0 ∧
      fieldSelf w &&& fieldSelf r.mask = 0 ∧ fieldImm w &&& fieldImm r.mask = 0 := by
  have hrows : ∀ r ∈ patterns, fieldOpc r.mask = 2 ^ 4 - 1 ∧ fieldZ r.mask = 2 ^ 10 - 1 ∧ fieldZ r.value = 0 ∧
      fieldSelf r.value = 0 ∧ fieldImm r.value = 0 := by decide
  obtain ⟨hopc, hz, hz0, hself0, himm0⟩ := hrows r hr
  rw [and_eq_iff_fields, hopc, hz, hz0, hself0, himm0, fieldOpc, fieldZ, field_and_full w rfl, field_and_full w rfl]

theorem Instr.fieldOpc_pattern_value (i : Instr) : fieldOpc i.pattern.value = i.opcode := by
  cases i <;> simp [Instr.pattern, Instr.opcode, fieldOpc, field]

/-- The operand bits that must be zero are zero in every operation's fields. -/
theorem Instr.operands_and_mask (i : Instr) :
    i.selfField &&& fieldSelf i.pattern.mask = 0 ∧ i.immField &&& fieldImm i.pattern.mask = 0 := by
  cases i with
  | setb p row =>
    have hrow : ∀ row : Fin 2, row.val &&& 2 = 0 := by decide
    simp [Instr.selfField, Instr.immField, Instr.pattern, fieldSelf, fieldImm, field, hrow]
  | nbclr | obclr | gen | emit | send | setc | tsel | fill =>
    simp [Instr.selfField, Instr.immField, Instr.pattern, fieldSelf, fieldImm, field]

/-- A word that is read as an operation matches that operation's row. -/
theorem matches_pattern_of_decode {w : Command} {i : Instr} (h : decode w = .ok i) :
    w &&& i.pattern.mask = i.pattern.value := by
  obtain ⟨-, hopc, hz, hself, himm⟩ := (decode_eq_ok_iff w i).mp h
  rw [pattern_matches_iff i.pattern_mem, i.fieldOpc_pattern_value, hself, himm]
  exact ⟨hopc, hz, i.operands_and_mask⟩

/-- A word that matches a row is read as an operation of that row. -/
theorem decode_of_matches_pattern {w : Command} {r : Pattern} (hr : r ∈ patterns) (h : w &&& r.mask = r.value) :
    ∃ i, decode w = .ok i ∧ i.pattern = r := by
  obtain ⟨hopc, hz, hself, himm⟩ := (pattern_matches_iff hr w).mp h
  have hself0 : fieldSelf w &&& 3 = 0 → fieldSelf w = 0 := (field_and_full w rfl).symm.trans
  have himm0 : fieldImm w &&& 65535 = 0 → fieldImm w = 0 := (field_and_full w rfl).symm.trans
  have hbare : fieldSelf w &&& 3 = 0 → fieldImm w &&& 65535 = 0 → ∀ i, bare w i = .ok i :=
    fun hself himm i => (bare_eq_ok_iff w i i).mpr ⟨hself0 hself, himm0 himm, rfl⟩
  have hrow : ∀ n < 4, n &&& 2 = 0 → n < 2 := by decide
  rw [decode, if_neg (not_not.mpr hz), decodeFields, hopc]
  simp only [patterns, List.mem_cons, List.not_mem_nil, or_false] at hr
  obtain rfl | rfl | rfl | rfl | rfl | rfl | rfl | rfl | rfl := hr
  · exact ⟨_, hbare hself himm _, rfl⟩
  · exact ⟨_, rfl, rfl⟩
  · exact ⟨_, if_pos (hrow _ (fieldSelf_lt w) hself), rfl⟩
  · exact ⟨_, if_neg (not_not.mpr (himm0 himm)), rfl⟩
  · exact ⟨_, hbare hself himm _, rfl⟩
  · exact ⟨_, hbare hself himm _, rfl⟩
  · exact ⟨_, hbare hself himm _, rfl⟩
  · exact ⟨_, hbare hself himm _, rfl⟩
  · exact ⟨_, if_neg (not_not.mpr (hself0 hself)), rfl⟩

/-- Settles O3: an operation's word matches the operation's row and no other, for the mnemonic names the row. -/
theorem wordSelectsExactlyItsPattern : Obligations.WordSelectsExactlyItsPattern := by
  refine ⟨fun w r hr => ⟨fun h => ?_, fun ⟨i, hi, hname⟩ => ?_⟩, fun w r r' hr hr' h h' => ?_⟩
  · obtain ⟨i, hi, rfl⟩ := decode_of_matches_pattern hr h
    exact ⟨i, hi, i.pattern_mnemonic.symm⟩
  · obtain rfl := pattern_eq_of_mnemonic_eq _ i.pattern_mem r hr (i.pattern_mnemonic.trans hname)
    exact matches_pattern_of_decode hi
  · obtain ⟨i, hi, rfl⟩ := decode_of_matches_pattern hr h
    obtain ⟨i', hi', rfl⟩ := decode_of_matches_pattern hr' h'
    cases hi.symm.trans hi'
    rfl

/-- Settles O4: each word is decoded. -/
theorem sampleWordsDecode : Obligations.SampleWordsDecode := by
  unfold Obligations.SampleWordsDecode
  decide

end Sys2Proof
end

section
/-! The step and the ports (spec/30_encoding.md R111, R120; spec/43_queue.md R214): what a turn of a port does, by the
word presented there. -/

namespace Sys2Proof.Machine

/-! ### The word on a port -/

theorem commandOn_eq_some_iff (p : Port) (w : Command) (i : Instr) :
    commandOn p w = some i ↔ decode w = .ok i ∧ i.port = p := by
  unfold commandOn
  cases decode w with
  | error e => simp
  | ok j =>
    by_cases hj : j.port = p
    · simp only [hj, if_true, Option.some.injEq, Except.ok.injEq]
      exact ⟨fun h => ⟨h, h ▸ hj⟩, And.left⟩
    · simp only [hj, if_false, Except.ok.injEq]
      exact ⟨nofun, fun ⟨h, hi⟩ => absurd hi (h ▸ hj)⟩

theorem commandOn_eq_none_iff (p : Port) (w : Command) :
    commandOn p w = none ↔ ∀ i, decode w = .ok i → i.port ≠ p := by
  simp only [Option.eq_none_iff_forall_ne_some, ne_eq, commandOn_eq_some_iff, not_and]

/-- The producer is held exactly while it presents a SEND and the slot is full (R111, R214). -/
theorem cmdReady_eq_false_iff (w : Command) (s : State) :
    cmdReady w s = false ↔ decode w = .ok .send ∧ s.qf = true := by
  have hsend : decode w = .ok .send ↔ commandOn .producer w = some .send := by
    rw [commandOn_eq_some_iff]
    exact (and_iff_left rfl).symm
  rw [hsend]
  unfold cmdReady
  split
  next h => simp [h]
  next h => exact ⟨fun hready => absurd hready (by decide), fun ⟨h', _⟩ => absurd h' h⟩

theorem runOn_of_decode {p : Port} {w : Command} {i : Instr} (hw : decode w = .ok i) (hp : i.port = p) (s : State) :
    runOn p w s = exec i s := by
  rw [runOn, (commandOn_eq_some_iff p w i).mpr ⟨hw, hp⟩]

theorem runOn_of_illegal {p : Port} {w : Command} (hw : ∀ i, decode w = .ok i → i.port ≠ p) (s : State) :
    runOn p w s = .next s := by
  rw [runOn, (commandOn_eq_none_iff p w).mpr hw]

/-! ### One turn -/

section Turn

variable {s : State} {w : Command} {ws : List Command} {r : List Port}

theorem step_producer (hs : s.sched = .producer :: r) (hc : s.cmds = w :: ws) :
    step s =
      if cmdReady w s then runOn .producer w { s with sched := r, cmds := ws } else .next { s with sched := r } := by
  rw [step, takeTurn, hs]
  simp only [serve, serveProducer, hc]
  rfl

theorem step_consumer (hs : s.sched = .consumer :: r) (hc : s.reqs = w :: ws) :
    step s = runOn .consumer w { s with sched := r, reqs := ws } := by
  rw [step, takeTurn, hs]
  simp only [serve, serveConsumer, hc]

theorem step_producer_of_decode (hs : s.sched = .producer :: r) (hc : s.cmds = w :: ws) {i : Instr}
    (hw : decode w = .ok i) (hp : i.port = .producer) (hfree : i = .send → s.qf = false) :
    step s = exec i { s with sched := r, cmds := ws } := by
  have hready : cmdReady w s = true := by
    rw [← Bool.not_eq_false, cmdReady_eq_false_iff]
    rintro ⟨hsend, hq⟩
    cases hw.symm.trans hsend
    exact absurd (hq.symm.trans (hfree rfl)) (by decide)
  rw [step_producer hs hc, if_pos hready, runOn_of_decode hw hp]

theorem step_consumer_of_decode (hs : s.sched = .consumer :: r) (hc : s.reqs = w :: ws) {i : Instr}
    (hw : decode w = .ok i) (hp : i.port = .consumer) : step s = exec i { s with sched := r, reqs := ws } := by
  rw [step_consumer hs hc, runOn_of_decode hw hp]

theorem step_of_stalled_send (hs : s.sched = .producer :: r) (hc : s.cmds = w :: ws) (hw : decode w = .ok .send)
    (hq : s.qf = true) : step s = .next { s with sched := r } := by
  rw [step_producer hs hc, (cmdReady_eq_false_iff w s).mpr ⟨hw, hq⟩]
  rfl

theorem step_producer_of_nothing (hs : s.sched = .producer :: r) (hc : s.cmds = []) :
    step s = .next { s with sched := r } := by
  rw [step, takeTurn, hs]
  simp only [serve, serveProducer, hc]

theorem step_consumer_of_nothing (hs : s.sched = .consumer :: r) (hc : s.reqs = []) :
    step s = .next { s with sched := r } := by
  rw [step, takeTurn, hs]
  simp only [serve, serveConsumer, hc]

end Turn

theorem exec_send_of_free {s : State} (hq : s.qf = false) : exec .send s = .next (handOff s) := by
  rw [exec_send, if_neg (ne_true_of_eq_false hq)]

theorem exec_send_of_full {s : State} (hq : s.qf = true) : exec .send s = .next s := by
  rw [exec_send, if_pos hq]

theorem portOf_encode {i : Instr} (h : i.wellFormed = true) : portOf (encode i) = i.port := by
  rw [portOf, (hasFields_encode h).opc]
  cases i <;> rfl

/-! ### The obligations -/

/-- Settles O5: the word is the port's own, and the producer is not held. -/
theorem stepRunsThePresentedCommand : Obligations.StepRunsThePresentedCommand :=
  ⟨fun _ _ _ _ _ hs hc hw hp hfree => step_producer_of_decode hs hc hw hp hfree,
    fun _ _ _ _ _ hs hc hw hp => step_consumer_of_decode hs hc hw hp⟩

/-- Settles O6: the producer is held. -/
theorem stalledSendStaysPresented : Obligations.StalledSendStaysPresented :=
  fun _ _ _ _ => step_of_stalled_send

/-- Settles O7: the word stands for no operation of its port, so it holds nothing up and performs nothing. -/
theorem illegalWordDoesNothing : Obligations.IllegalWordDoesNothing := by
  refine ⟨fun s w ws r hs hc hw => ?_, fun s w ws r hs hc hw => ?_⟩
  · have hready : cmdReady w s = true := by
      rw [← Bool.not_eq_false, cmdReady_eq_false_iff]
      exact fun ⟨hsend, _⟩ => hw _ hsend rfl
    rw [step_producer hs hc, if_pos hready, runOn_of_illegal hw]
  · rw [step_consumer hs hc, runOn_of_illegal hw]

/-- Settles O8: no turn, or a port that presents nothing. -/
theorem stepWithNothingToServe : Obligations.StepWithNothingToServe := by
  refine ⟨fun s hs => ?_, fun _ _ => step_producer_of_nothing, fun _ _ => step_consumer_of_nothing⟩
  rw [step, takeTurn, hs]

/-- Settles O9: the word placed is the operation's own, on the port its OPC names, and using it up gives back the state
before it was placed. -/
theorem fetchWordIsPerformedNext : Obligations.FetchWordIsPerformedNext := by
  intro s i hwf hfree
  have hw := decodeOfEncodeIsTheInstruction i hwf
  have hword : BitVec.ofNat 32 ((encode i).toNat % 2 ^ 32) = encode i := by
    rw [Nat.mod_eq_of_lt (encode i).isLt, BitVec.ofNat_toNat, BitVec.setWidth_eq]
  rw [State.withFetchWord, hword, portOf_encode hwf]
  cases hp : i.port with
  | producer => exact step_producer_of_decode rfl rfl hw hp hfree
  | consumer => exact step_consumer_of_decode rfl rfl hw hp

/-- Settles O40: SEND on a full slot, and when the producer is held. -/
theorem sendStallsWhileTheSlotIsFull : Obligations.SendStallsWhileTheSlotIsFull := 
  ⟨fun _ => exec_send_of_full, fun s w => cmdReady_eq_false_iff w s⟩

/-- Settles O39: the hand-off, with the free bytes it leaves in `NB`. -/
theorem sendHandsTheRowOff : Obligations.SendHandsTheRowOff := by
  intro s hq
  exact ⟨staleRow s.draws, exec_send_of_free hq⟩

/-! ### What is presented and scheduled -/

/-- The state with other words presented and another schedule. -/
def withPorts (cmds reqs : List Command) (sched : List Port) (s : State) : State :=
  { s with cmds := cmds, reqs := reqs, sched := sched }

theorem eq_withPorts {s : State} {cmds reqs : List Command} {sched : List Port} (hc : s.cmds = cmds)
    (hr : s.reqs = reqs) (hs : s.sched = sched) : s = withPorts cmds reqs sched s := by
  subst hc hr hs
  rfl

/-- No operation reads or writes what is presented and scheduled. -/
theorem exec_withPorts {i : Instr} {s t : State} (h : exec i s = .next t) (cmds reqs : List Command)
    (sched : List Port) : exec i (withPorts cmds reqs sched s) = .next (withPorts cmds reqs sched t) := by
  cases i with
  | nbclr => cases (exec_nbclr s).symm.trans h; rfl
  | setc p color =>
    cases (exec_setc p color s).symm.trans h
    rw [exec_setc]
    split <;> rfl
  | setb p row =>
    cases (exec_setb p row s).symm.trans h
    rw [exec_setb]
    split <;> rfl
  | tsel c => cases (exec_tsel c s).symm.trans h; rfl
  | obclr => cases (exec_obclr s).symm.trans h; rfl
  | gen => cases (exec_gen s).symm.trans h; rfl
  | emit =>
    obtain ⟨hle, rfl⟩ := exec_emit_cases h
    exact exec_emit_of_le (s := withPorts cmds reqs sched s) hle
  | send =>
    cases (exec_send s).symm.trans h
    rw [exec_send, apply_ite (withPorts cmds reqs sched)]
    rfl
  | fill len =>
    obtain ⟨hidle, hcap, ⟨hq, rfl⟩ | ⟨hq, hfits, rfl⟩⟩ := exec_fill_cases h
    · exact exec_fill_idle (s := withPorts cmds reqs sched s) hidle hq hcap
    · exact exec_fill_row (s := withPorts cmds reqs sched s) hidle hq hcap hfits

section WithPorts

variable {s t : State} {w : Command} {i : Instr} (cmds reqs : List Command) (sched : List Port)

theorem step_withPorts_producer (hw : decode w = .ok i) (hp : i.port = .producer) (hfree : i = .send → s.qf = false)
    (h : exec i s = .next t) :
    step (withPorts (w :: cmds) reqs (.producer :: sched) s) = .next (withPorts cmds reqs sched t) :=
  (step_producer_of_decode (s := withPorts (w :: cmds) reqs (.producer :: sched) s) rfl rfl hw hp hfree).trans
    (exec_withPorts h cmds reqs sched)

theorem step_withPorts_consumer (hw : decode w = .ok i) (hp : i.port = .consumer) (h : exec i s = .next t) :
    step (withPorts cmds (w :: reqs) (.consumer :: sched) s) = .next (withPorts cmds reqs sched t) :=
  (step_consumer_of_decode rfl rfl hw hp).trans (exec_withPorts h cmds reqs sched)

theorem step_withPorts_stalled (hw : decode w = .ok .send) (hq : s.qf = true) :
    step (withPorts (w :: cmds) reqs (.producer :: sched) s) = .next (withPorts (w :: cmds) reqs sched s) :=
  step_of_stalled_send (s := withPorts (w :: cmds) reqs (.producer :: sched) s) rfl rfl hw hq

theorem step_withPorts_no_cmds :
    step (withPorts [] reqs (.producer :: sched) s) = .next (withPorts [] reqs sched s) :=
  step_producer_of_nothing (s := withPorts [] reqs (.producer :: sched) s) rfl rfl

theorem step_withPorts_no_reqs :
    step (withPorts cmds [] (.consumer :: sched) s) = .next (withPorts cmds [] sched s) :=
  step_consumer_of_nothing (s := withPorts cmds [] (.consumer :: sched) s) rfl rfl

end WithPorts

/-- Settles O10: the SEND stays presented for one turn, the FILL takes the row, and the SEND finds the slot free. -/
theorem stalledSendCompletesAfterAFill : Obligations.StalledSendCompletesAfterAFill := by
  intro s w f ws fs r len hq hidle hs hc hw hr hf hfits hcap
  have hfill := exec_fill_row hidle hq hcap hfits
  have hsend := exec_send_of_free (afterRowFill_qf len s)
  have hstall := step_withPorts_stalled ws (f :: fs) (.consumer :: .producer :: r) hw hq
  rw [← eq_withPorts hc hr hs] at hstall
  exact ⟨_, _, _, hstall, step_withPorts_consumer _ _ _ hf rfl hfill,
    step_withPorts_producer _ _ _ hw rfl (fun _ => rfl) hsend, rfl, rfl, rfl, rfl, rfl, rfl⟩

end Sys2Proof.Machine
end

section
/-! Runs of operations: the firing queue over any sequence (spec/43_queue.md R218, R219), the row between its SEND and
its FILL (spec/20_memory.md R73), the fills after reset (spec/70_reset_and_hazards.md R281), and the two commands that
coincide. -/

namespace Sys2Proof.Machine

/-- A run that completes has completed its first operation. -/
theorem execAll_cons_cases {i : Instr} {is : List Instr} {s t : State} (h : execAll (i :: is) s = .next t) :
    ∃ u, exec i s = .next u ∧ execAll is u = .next t := by
  unfold execAll at h
  split at h
  next u he => exact ⟨u, he, h⟩
  next => cases h
  next => cases h

theorem execAll_pair {i j : Instr} {s u t : State} (hi : exec i s = .next u) (hj : exec j u = .next t) :
    execAll [i, j] s = .next t :=
  (execAll_cons_of_next hi [j]).trans (execAll_cons_of_next hj [])

/-- No row is pending after a FILL: it took the row, or there was none (R216). -/
theorem exec_fill_qf {len : Nat} {s t : State} (h : exec (.fill len) s = .next t) : t.qf = false := by
  obtain ⟨-, -, ⟨hq, rfl⟩ | ⟨-, -, rfl⟩⟩ := exec_fill_cases h
  · exact hq
  · rfl

/-- A FILL inside its contract completes, with a row or without (R233). -/
theorem exec_fill_completes {len : Nat} {s : State} (hidle : s.drainer = .idle) (hcap : len ≤ s.cfg.obCap)
    (hfits : waveLength (selectedTemplate s).length ≤ len) : ∃ t, exec (.fill len) s = .next t := by
  cases hq : s.qf with
  | true => exact ⟨_, exec_fill_row hidle hq hcap hfits⟩
  | false => exact ⟨_, exec_fill_idle hidle hq hcap⟩

/-! ### What the queue counts (R219) -/

/-- One operation: a completed SEND sets the flag, a successful take clears it, and nothing else writes it. -/
theorem exec_qf_balance {i : Instr} {s t : State} (h : exec i s = .next t) :
    (if i = .send ∧ s.qf = false then 1 else 0) + (if s.qf then 1 else 0) =
      (if i.port = .consumer ∧ s.qf = true then 1 else 0) + (if t.qf then 1 else 0) := by
  obtain ⟨-, hwrites, -⟩ := onlyTheNamedOperationsWrite i s t h
  cases i with
  | send =>
    cases (exec_send s).symm.trans h
    cases hq : s.qf <;> simp [Instr.port, hq]
  | fill len =>
    obtain ⟨-, -, ⟨hq, rfl⟩ | ⟨hq, -, rfl⟩⟩ := exec_fill_cases h
    · simp [hq]
    · simp [hq, Instr.port]
  | nbclr | setc | setb | tsel | obclr | gen | emit =>
    have hkept : t.qf = s.qf := by simpa using hwrites
    simp [Instr.port, hkept]

/-- Settles O42, by induction on the operations: each one keeps the balance. -/
theorem sendsLessTakesIsTheFlag : Obligations.SendsLessTakesIsTheFlag := by
  intro is s t h
  induction is generalizing s with
  | nil => cases h; rfl
  | cons i is ih =>
    obtain ⟨u, he, hrun⟩ := execAll_cons_cases h
    have hstep := exec_qf_balance he
    have hrest := ih u hrun
    simp only [sendsCompleted, rowsTaken, he]
    omega

/-! ### The row between its SEND and its FILL (R73) -/

/-- While a row is pending no operation of the producer touches the flag, the slot or the drainer. -/
theorem exec_producer_keeps_slot {i : Instr} {s t : State} (hp : i.port = .producer) (hq : s.qf = true)
    (h : exec i s = .next t) : t.qf = true ∧ t.qs = s.qs ∧ t.drainer = s.drainer := by
  cases i with
  | nbclr => cases (exec_nbclr s).symm.trans h; exact ⟨hq, rfl, rfl⟩
  | setc p color =>
    cases (exec_setc p color s).symm.trans h
    split <;> exact ⟨hq, rfl, rfl⟩
  | setb p row =>
    cases (exec_setb p row s).symm.trans h
    split <;> exact ⟨hq, rfl, rfl⟩
  | tsel c => cases (exec_tsel c s).symm.trans h; exact ⟨hq, rfl, rfl⟩
  | obclr => cases (exec_obclr s).symm.trans h; exact ⟨hq, rfl, rfl⟩
  | gen => cases (exec_gen s).symm.trans h; exact ⟨hq, rfl, rfl⟩
  | emit =>
    obtain ⟨-, rfl⟩ := exec_emit_cases h
    exact ⟨hq, rfl, rfl⟩
  | send => cases (exec_send_of_full hq).symm.trans h; exact ⟨hq, rfl, rfl⟩
  | fill len => cases hp

theorem execAll_producer_keeps_slot {is : List Instr} {s t : State} (hp : ∀ i ∈ is, i.port = .producer)
    (hq : s.qf = true) (h : execAll is s = .next t) : t.qf = true ∧ t.qs = s.qs ∧ t.drainer = s.drainer := by
  induction is generalizing s with
  | nil => cases h; exact ⟨hq, rfl, rfl⟩
  | cons i is ih =>
    obtain ⟨hpi, hpis⟩ := List.forall_mem_cons.mp hp
    obtain ⟨u, he, hrun⟩ := execAll_cons_cases h
    obtain ⟨hqu, hqs, hd⟩ := exec_producer_keeps_slot hpi hq he
    obtain ⟨hqt, hqs', hd'⟩ := ih hpis hqu hrun
    exact ⟨hqt, hqs'.trans hqs, hd'.trans hd⟩

/-- Settles O43: the slot still holds the row when the FILL takes it. -/
theorem theRowEncodedIsTheRowSent : Obligations.TheRowEncodedIsTheRowSent := by
  intro s s1 t is len hq hidle hsend hp hrun hfits hcap
  cases (exec_send_of_free hq).symm.trans hsend
  obtain ⟨hqt, hqs, hd⟩ := execAll_producer_keeps_slot hp (handOff_qf s) hrun
  have hqs' : t.qs = s.nb := hqs
  obtain ⟨ob', hfill, hread, -⟩ := fillWithARowEncodesIt t len (hd.trans hidle) hqt hfits hcap
  rw [hqs'] at hfill hread
  exact ⟨_, hfill, rfl, rfl, hread⟩

/-! ### FILL and EMIT -/

/-- Settles O46: FILL's tests, in the order it makes them. -/
theorem fillRefusesTheLengthsOutsideItsContract : Obligations.FillRefusesTheLengthsOutsideItsContract := by
  refine ⟨fun s len hd hlen => ?_, fun s len hd hq hcap hlen => ?_, fun s len hd hq hcap => ?_, fun s len hd => ?_⟩
  · show execFill len s = _
    simp only [execFill, hd, if_neg (Nat.not_le.mpr hlen)]
  · have hfit : waveFits (selectedTemplate s).length len = false := decide_eq_false (Nat.not_le.mpr hlen)
    show execFill len s = _
    simp only [execFill, hd, if_pos hcap, fillBody]
    rw [tryRecv_full (by simpa using hq)]
    exact if_neg (ne_true_of_eq_false hfit)
  · exact ⟨_, exec_fill_idle hd hq hcap⟩
  · show execFill len s = _
    simp only [execFill, hd]

/-- Settles O49: the words of the cells below `WLEN`. -/
theorem emitPushesTheWrittenLength : Obligations.EmitPushesTheWrittenLength := by
  intro s hle
  refine ⟨busWords s s.wlen.toNat, exec_emit_of_le hle, busWords_length s _, fun n v hn hv => ?_⟩
  rw [busWords, List.getElem?_map, List.getElem?_range hn, Option.map_some, busWord_of_read hv]

/-! ### After reset (R45, R281) -/

/-- FILLs with the slot free each hand over the idle pattern, and leave the slot free for the next. -/
theorem execAll_fills_of_free (lens : List Nat) {s : State} (hidle : s.drainer = .idle) (hq : s.qf = false)
    (hcap : ∀ n ∈ lens, n ≤ s.cfg.obCap) :
    ∃ t, execAll (lens.map .fill) s = .next t ∧ t.qf = false ∧
      t.events = s.events ++ lens.map fun n => .fillDone (List.replicate n 0#16) := by
  induction lens generalizing s with
  | nil => exact ⟨s, rfl, hq, (List.append_nil _).symm⟩
  | cons len lens ih =>
    obtain ⟨hlen, hlens⟩ := List.forall_mem_cons.mp hcap
    obtain ⟨ob', hfill, -⟩ := fillWithoutARowLeavesTheIdlePattern s len hidle hq hlen
    obtain ⟨t, hrun, hqt, hevents⟩ := ih (s := { s with ob := ob', events := s.events ++ _ }) hidle hq hlens
    refine ⟨t, (execAll_cons_of_next hfill _).trans hrun, hqt, ?_⟩
    rw [hevents, List.append_assoc]
    rfl

/-- Settles O48: after reset the slot is free and the drainer IDLE. -/
theorem fillsAfterResetAreIdle : Obligations.FillsAfterResetAreIdle :=
  fun lens hcap => execAll_fills_of_free lens rfl rfl hcap

/-- Settles O53: at reset `OB` lists no cell, and `WLEN` is 0. -/
theorem resetMeetsTheInvariant : Obligations.ResetMeetsTheInvariant :=
  { obCanonical := reset_ob_wf, obInside := rfl, wlenIsLength := .inl rfl, drainerIdle := rfl }

/-- Settles O54: the fields of the reset state. -/
theorem resetLeavesTheQueueFree : Obligations.ResetLeavesTheQueueFree :=
  ⟨rfl, rfl, rfl, rfl, rfl, Memory.read_nil⟩

/-! ### A SEND and a FILL that coincide (R218) -/

/-- The whole of a schedule, one step for each turn. -/
def runSchedule (s : State) : Host.Outcome State Fault Refusal := Host.Core.run Sys2Proof.core s.sched.length s

/-- A turn that completes is the first step of the schedule. -/
theorem runSchedule_of_step {cmds reqs cmds' reqs' : List Command} {p : Port} {sched : List Port} {s u : State}
    (h : step (withPorts cmds reqs (p :: sched) s) = .next (withPorts cmds' reqs' sched u)) :
    runSchedule (withPorts cmds reqs (p :: sched) s) = runSchedule (withPorts cmds' reqs' sched u) := by
  show Host.Core.run Sys2Proof.core (sched.length + 1) _ = Host.Core.run Sys2Proof.core sched.length _
  have hcore : Sys2Proof.core.step (withPorts cmds reqs (p :: sched) s) = .next (withPorts cmds' reqs' sched u) := h
  simp only [Host.Core.run, hcore]

theorem runSchedule_of_nothing (sched : List Port) (s : State) :
    runSchedule (withPorts [] [] sched s) = .next (withPorts [] [] [] s) := by
  induction sched with
  | nil => rfl
  | cons p sched ih =>
    cases p with
    | producer => exact (runSchedule_of_step (step_withPorts_no_cmds [] sched)).trans ih
    | consumer => exact (runSchedule_of_step (step_withPorts_no_reqs [] sched)).trans ih

section Schedule

variable {w f : Command} {len : Nat} {s t u v : State} {sched : List Port}

/-- A SEND alone on the ports completes when it has left, if the slot is free. -/
theorem runSchedule_of_send (hw : decode w = .ok .send) (hq : s.qf = false)
    (h : runSchedule (withPorts [w] [] sched s) = .next t) (hc : t.cmds = []) : t = withPorts [] [] [] (handOff s) := by
  induction sched with
  | nil => cases h; cases hc
  | cons p sched ih =>
    cases p with
    | producer =>
      have hturn := runSchedule_of_step
        (step_withPorts_producer [] [] sched hw rfl (fun _ => hq) (exec_send_of_free hq))
      rw [hturn, runSchedule_of_nothing] at h
      cases h
      rfl
    | consumer => exact ih ((runSchedule_of_step (step_withPorts_no_reqs [w] sched)).symm.trans h)

/-- A FILL alone on the ports has been performed when it has left. -/
theorem runSchedule_of_fill (hf : decode f = .ok (.fill len)) (he : exec (.fill len) s = .next u)
    (h : runSchedule (withPorts [] [f] sched s) = .next t) (hr : t.reqs = []) : t = withPorts [] [] [] u := by
  induction sched with
  | nil => cases h; cases hr
  | cons p sched ih =>
    cases p with
    | producer => exact ih ((runSchedule_of_step (step_withPorts_no_cmds [f] sched)).symm.trans h)
    | consumer =>
      have hturn := runSchedule_of_step (step_withPorts_consumer [] [] sched hf rfl he)
      rw [hturn, runSchedule_of_nothing] at h
      cases h
      rfl

/-- Both commands on the ports: once both have left, the FILL was performed before the SEND, or the slot was free and
the SEND was performed before the FILL. -/
theorem runSchedule_of_send_and_fill (hw : decode w = .ok .send) (hf : decode f = .ok (.fill len))
    (he : exec (.fill len) s = .next u) (hv : exec (.fill len) (handOff s) = .next v)
    (h : runSchedule (withPorts [w] [f] sched s) = .next t) (hc : t.cmds = []) (hr : t.reqs = []) :
    t = withPorts [] [] [] (handOff u) ∨ s.qf = false ∧ t = withPorts [] [] [] v := by
  induction sched with
  | nil => cases h; cases hc
  | cons p sched ih =>
    cases p with
    | producer =>
      cases hq : s.qf with
      | true =>
        rw [← hq]
        exact ih ((runSchedule_of_step (step_withPorts_stalled [] [f] sched hw hq)).symm.trans h)
      | false =>
        have hturn := runSchedule_of_step
          (step_withPorts_producer [] [f] sched hw rfl (fun _ => hq) (exec_send_of_free hq))
        exact .inr ⟨rfl, runSchedule_of_fill hf hv (hturn.symm.trans h) hr⟩
    | consumer =>
      have hturn := runSchedule_of_step (step_withPorts_consumer [w] [] sched hf rfl he)
      exact .inl (runSchedule_of_send hw (exec_fill_qf he) (hturn.symm.trans h) hc)

end Schedule

/-- Settles O60: the orders one by one, and for a schedule the order in which it serves the ports. -/
theorem coincidentSendAndFill : Obligations.CoincidentSendAndFill := by
  intro s len hidle hfits hcap
  have hsent : exec (.fill len) (handOff s) = .next (afterRowFill len (handOff s)) :=
    exec_fill_row (s := handOff s) hidle rfl hcap hfits
  refine ⟨fun hq => ⟨?_, ?_⟩, fun hq => ?_, fun w f t hc hw hr hf hrun htc htr => ?_⟩
  · exact ⟨_, execAll_pair (exec_send_of_free hq) hsent, rfl, rfl⟩
  · have hfill := exec_fill_idle hidle hq hcap
    refine ⟨_, execAll_pair hfill (exec_send_of_free hq), rfl, rfl, rfl, fun n hn => ?_⟩
    rw [handOff_ob, afterIdleFill_ob, Memory.read_zeroBelow, if_pos hn]
  · have horder := execAll_pair (exec_fill_row hidle hq hcap hfits) (exec_send_of_free (afterRowFill_qf len s))
    exact ⟨⟨_, (execAll_cons_of_next (exec_send_of_full hq) _).trans horder, rfl, rfl, rfl⟩, _, horder, rfl, rfl, rfl⟩
  · obtain ⟨u, he⟩ := exec_fill_completes hidle hcap hfits
    have hrun' : runSchedule (withPorts [w] [f] s.sched s) = .next t := by rwa [← eq_withPorts hc hr rfl]
    obtain rfl | ⟨hq, rfl⟩ := runSchedule_of_send_and_fill hw hf he hsent hrun' htc htr
    · left
      exact execAll_pair (exec_withPorts he [] [] [])
        (exec_withPorts (exec_send_of_free (exec_fill_qf he)) [] [] [])
    · exact .inr ⟨hq, execAll_pair (exec_withPorts (exec_send_of_free hq) [] [] []) (exec_withPorts hsent [] [] [])⟩

end Sys2Proof.Machine
end

section
/-! The addresser as a whole (spec/40_addresser.md R137, R149; spec/20_memory.md R67): colour and black addressing are
bijections, and SETC and SETB are ORs into `NB`, which commute and are idempotent. -/

namespace Sys2Proof.Machine

/-! ### Colour addressing (R137) -/

/-- The nozzle index and the colour whose coordinate is cell `a`, bit `b`: 3 inverts the step of 5 columns modulo 14. -/
def colorNozzleAt (a b : Nat) : Nat × Nat :=
  (14 * b + 3 * (a % 14 + 14 - [8, 11, 0].getD (a / 14) 0) % 14, a / 14)

theorem colorStart_lt : ∀ color < 3, [8, 11, 0].getD color 0 < 14 := by decide

theorem colorNozzleAt_colorCoord {p color : Nat} (hcolor : color ≤ 2) :
    colorNozzleAt (colorCoord p color).byteIndex (colorCoord p color).bitIndex = (p, color) := by
  have hstart := colorStart_lt color (by omega)
  rw [colorCoord_eq p hcolor]
  generalize hstart' : [8, 11, 0].getD color 0 = start at *
  have hgroup : (14 * color + (start + 5 * (p % 14)) % 14) / 14 = color := by omega
  have hcolumn : (14 * color + (start + 5 * (p % 14)) % 14) % 14 = (start + 5 * (p % 14)) % 14 := by omega
  have hindex : 14 * (p / 14) + 3 * ((start + 5 * (p % 14)) % 14 + 14 - start) % 14 = p := by omega
  rw [colorNozzleAt, hgroup, hcolumn, hstart', hindex]

theorem colorCoord_colorNozzleAt {a : Nat} (ha : a < 42) (b : Nat) :
    colorCoord (colorNozzleAt a b).1 (colorNozzleAt a b).2 = ⟨a, b⟩ := by
  rw [colorNozzleAt, colorCoord_eq _ (by simp only; omega)]
  have hstart := colorStart_lt (a / 14) (by omega)
  generalize [8, 11, 0].getD (a / 14) 0 = start at *
  simp only [Coord.mk.injEq]
  omega

/-- Settles O18: the closed form gives the group, the step to the next column and the bit, and it has an inverse. -/
theorem colorAddressingIsABijection : Obligations.ColorAddressingIsABijection := by
  refine ⟨fun p color hp hcolor => ?_, fun p color hp hcolor => ?_, fun a b ha hb => ?_⟩
  · rw [colorCoord_eq p hcolor]
    constructor <;> simp only <;> omega
  · rw [colorCoord_eq p hcolor, colorCoord_eq (p + 1) hcolor]
    constructor <;> simp only <;> omega
  · have hlt : (colorNozzleAt a b).1 ≤ 111 ∧ (colorNozzleAt a b).2 ≤ 2 := by
      simp only [colorNozzleAt]
      omega
    refine ⟨_, _, hlt.1, hlt.2, colorCoord_colorNozzleAt ha b, fun p' color' _ hcolor' hcoord => ?_⟩
    have hinv := colorNozzleAt_colorCoord (p := p') hcolor'
    rw [hcoord] at hinv
    rw [hinv]
    exact ⟨rfl, rfl⟩

/-! ### Black addressing (R149) -/

/-- Each (group, bit) pair stands in exactly one entry of `NozzleInfo`. -/
theorem existsUnique_nozzleInfo : ∀ c < 3, ∀ b < 8, ∃ jn < 24, (nozzleInfo jn).c = c ∧ (nozzleInfo jn).bit = b ∧
    ∀ jn' < 24, (nozzleInfo jn').c = c → (nozzleInfo jn').bit = b → jn' = jn := by decide

/-- In each order `k` runs through a permutation of the columns. -/
theorem existsUnique_blackByteOrder : ∀ order < 2, ∀ e < 14, ∃ k < 14, blackByteOrder order k = e ∧
    ∀ k' < 14, blackByteOrder order k' = e → k' = k := by decide

theorem nozzleInfo_bounds :
    ∀ jn < 24, (nozzleInfo jn).c < 3 ∧ (nozzleInfo jn).bit < 8 ∧ (nozzleInfo jn).order < 2 := by decide

theorem blackByteOrder_lt : ∀ order < 2, ∀ k < 14, blackByteOrder order k < 14 := by decide

/-- A black coordinate is the group and the bit of its entry, and a column in the entry's order. -/
theorem blackCoord_eq_iff {p row jn k : Nat} (hjn : jn < 24) (hentry : p / 14 + 12 * row = jn)
    (hplace : 13 - p % 14 = k) (a b : Nat) :
    blackCoord p row = ⟨a, b⟩ ↔ (nozzleInfo jn).c = a / 14 ∧ (nozzleInfo jn).bit = b ∧
      blackByteOrder (nozzleInfo jn).order k = a % 14 := by
  obtain ⟨-, -, horder⟩ := nozzleInfo_bounds jn hjn
  have hcol := blackByteOrder_lt _ horder k (by omega)
  rw [blackCoord_eq_nozzleInfo, hentry, hplace, Coord.mk.injEq]
  omega

/-- Settles O19: the two tables are searched for the bijections of R149; a coordinate then gives the entry and the
column, and those the nozzle. -/
theorem blackAddressingIsABijection : Obligations.BlackAddressingIsABijection := by
  refine ⟨fun p row hp hrow => ?_, fun a b ha hb => ?_, fun c b hc => existsUnique_nozzleInfo c hc b,
    fun order e ho => existsUnique_blackByteOrder order ho e⟩
  · obtain ⟨hc, hbit, -⟩ := nozzleInfo_bounds (p / 14 + 12 * row) (by omega)
    have hparts := blackCoord_eq_iff (p := p) (row := row) (by omega) rfl rfl
    obtain ⟨hc', hbit', -⟩ := (hparts (blackCoord p row).byteIndex (blackCoord p row).bitIndex).mp rfl
    omega
  · obtain ⟨jn, hjn, hc, hbit, hentry⟩ := existsUnique_nozzleInfo (a / 14) (by omega) b hb
    obtain ⟨-, -, horder⟩ := nozzleInfo_bounds jn hjn
    obtain ⟨k, hk, hcol, hplace⟩ := existsUnique_blackByteOrder _ horder (a % 14) (by omega)
    refine ⟨14 * (jn % 12) + (13 - k), jn / 12, by omega, by omega, ?_, fun p' row' hp' hrow' hcoord => ?_⟩
    · exact (blackCoord_eq_iff hjn (by omega) (by omega) a b).mpr ⟨hc, hbit, hcol⟩
    · obtain ⟨hc', hbit', hcol'⟩ := (blackCoord_eq_iff (by omega) rfl rfl a b).mp hcoord
      have hsame := hentry _ (by omega) hc' hbit'
      rw [hsame] at hcol'
      have hsame' := hplace _ (by omega) hcol'
      omega

/-! ### SETC and SETB -/

/-- SETC and SETB OR a mask into one cell of `NB`, which mask and which cell given by the operands alone: out of range,
the mask is zero (R67, R132, R141). -/
theorem exec_eq_orCell {i : Instr} (hi : (∃ p c, i = .setc p c) ∨ ∃ p r, i = .setb p r) :
    ∃ a m, ∀ s, exec i s = .next { s with nb := orCell s.nb a m } := by
  have hset : ∀ (inRange : Bool) (c : Coord), ∃ a m, ∀ s : State,
      (if inRange then setNozzle c s else s) = { s with nb := orCell s.nb a m } := by
    intro inRange c
    cases inRange with
    | true => exact ⟨c.byteIndex, c.mask, fun _ => rfl⟩
    | false => exact ⟨0, 0#8, fun s => by rw [orCell_zero]; rfl⟩
  obtain ⟨p, color, rfl⟩ | ⟨p, row, rfl⟩ := hi
  · obtain ⟨a, m, h⟩ := hset (colorInRange p color.val) (colorCoord p.toNat color.val)
    exact ⟨a, m, fun s => by rw [exec_setc, h]⟩
  · obtain ⟨a, m, h⟩ := hset (blackInRange p) (blackCoord p.toNat row.val)
    exact ⟨a, m, fun s => by rw [exec_setb, h]⟩

/-- Settles O21: ORs into cells commute and are idempotent. -/
theorem addresserOperationsCommute : Obligations.AddresserOperationsCommute := by
  refine ⟨fun s i j hi hj => ?_, fun s i hi => ?_⟩
  · obtain ⟨a, m, hexec⟩ := exec_eq_orCell hi
    obtain ⟨b, n, hexec'⟩ := exec_eq_orCell hj
    refine ⟨_, _, _, hexec s, hexec' _, hexec' s, ?_⟩
    rw [hexec, orCell_comm]
  · obtain ⟨a, m, hexec⟩ := exec_eq_orCell hi
    refine ⟨_, hexec s, ?_⟩
    rw [hexec, orCell_idem]

/-- Settles O13: SETC's range test fails, or passes. -/
theorem setcRangeTest : Obligations.SetcRangeTest :=
  ⟨fun s _ _ h => exec_setc_of_out_of_range s h, fun s _ _ hp hcolor => exec_setc_of_le s hp hcolor⟩

/-- Settles O14: bit 8 is outside the cell, so the mask is zero and the OR changes nothing. -/
theorem setcOneHundredTwelveChangesNothing : Obligations.SetcOneHundredTwelveChangesNothing := by
  intro s color hcolor
  have hcoord : colorCoord 112 color.val = ⟨[8, 25, 28].getD color.val 0, 8⟩ := by
    revert color
    decide
  have hmask : (colorCoord 112 color.val).mask = 0#8 := by simp [hcoord, Coord.mask]
  refine ⟨(colorInRange_iff _ _).mpr ⟨hcolor, by decide⟩, hcoord, hmask, ?_⟩
  refine (exec_setc_of_le s (p := 112) le_rfl hcolor).trans ?_
  rw [setNozzle, hmask, orCell_zero]

/-- Settles O17: SETB's range test fails, or passes and bounds the translated index. -/
theorem setbRangeTest : Obligations.SetbRangeTest := by
  refine ⟨fun s p row h => ?_, fun s p row hp => ⟨exec_setb_of_le s row hp, ?_⟩⟩
  · rw [exec_setb, if_neg (mt (blackInRange_iff _).mp (by omega))]
  · have hlen : nozzleInfoTable.length = 24 := rfl
    omega

end Sys2Proof.Machine
end

section
/-! The template library and the encoder (spec/41_template_library.md R160; spec/42_encoder.md R171, R187, R192, R193):
TSEL, OBCLR, and what the selector and the words of a stage depend on. -/

namespace Sys2Proof.Machine

/-- Settles O22: the four words one by one, and TSEL's meaning. -/
theorem tselSelectsTheTemplate : Obligations.TselSelectsTheTemplate := 
  ⟨fun c => by cases c <;> decide, fun s c => ⟨_, exec_tsel c s, rfl, rfl⟩⟩

/-- Settles O23: OBCLR zeroes the cells below the capacity. -/
theorem obclrZeroesTheOutputBuffer : Obligations.ObclrZeroesTheOutputBuffer := by
  have hdecode : decode 0x50000000#32 = .ok .obclr := by decide
  refine ⟨hdecode, fun s => ⟨_, exec_obclr s, fun n hn => ?_, fun n hn => ?_⟩⟩
  · rw [Memory.read_zeroBelow, if_pos hn]
  · rw [Memory.read_zeroBelow, if_neg hn.not_gt]

/-- Settles O27: a waveform's length is even. -/
theorem roundingNeverChangesALength : Obligations.RoundingNeverChangesALength := by
  refine ⟨roundUpEven_waveLength, fun x hx => ?_, fun x hx => ?_⟩
  · rw [roundUpEven, if_neg (by omega)]
  · rw [roundUpEven, if_pos hx]

/-! ### The selector on a data word (R178, R192) -/

/-- While no transition has been counted the toggle state is still the 0 a stage starts with. -/
theorem togBefore_of_transitionsBefore_eq_zero {tp : List Word} {i : Nat} (h : transitionsBefore tp i = 0) :
    togBefore tp i = 0#2 := by
  induction i with
  | zero => rfl
  | succ i ih =>
    rw [transitionsBefore_succ] at h
    obtain ⟨hcount, hsame⟩ := Nat.add_eq_zero_iff.mp h
    have htog : togAt tp i = togBefore tp i := by simpa [toggled] using hsame
    exact htog.trans (ih hcount)

theorem one_le_selectorAfter {n : Nat} (hn : n ≠ 0) : 1 ≤ selectorAfter n := by
  rw [selectorAfter, if_neg hn]
  exact Nat.one_le_two_pow

/-- Settles O36: toggle bits that are not both zero differ from the start of the stage, so a transition was counted. -/
theorem selectorIsSetOnEveryDataWord : Obligations.SelectorIsSetOnEveryDataWord := by
  intro tp i w hw htog
  rw [selAt_eq_selectorAfter]
  refine one_le_selectorAfter fun hzero => htog ?_
  have hstart : togAt tp i = 0#2 := togBefore_of_transitionsBefore_eq_zero hzero
  rwa [togAt, List.getD_eq_getElem?_getD, hw] at hstart

/-! ### What the words of a stage depend on (R193) -/

/-- The closed form's word reads of its stage whether it is the last, and the three cells. -/
theorem closedWord_congr {d d' : Row} {j j' : Nat} (hempty : rowEmpty d = rowEmpty d') (hlast : j = 13 ↔ j' = 13)
    (h1 : cell d j = cell d' j') (h2 : cell d (14 + j) = cell d' (14 + j'))
    (h3 : cell d (28 + j) = cell d' (28 + j')) (tp : List Word) (i : Nat) :
    closedWord tp d j i = closedWord tp d' j' i := by
  have hpower : power d j = power d' j' := by simp only [power, line1, line2, line3, h1, h2, h3]
  have hf3 : suppressF3 d j = suppressF3 d' j' := by rw [suppressF3, suppressF3, hpower]
  have hf5 : suppressF5 d j = suppressF5 d' j' := by rw [suppressF5, suppressF5, hpower]
  have hkeep : keepMask d j = keepMask d' j' := by rw [keepMask, keepMask, hf3, hf5]
  have hsync : syncBit j = syncBit j' := by simp only [syncBit, hlast]
  simp only [closedWord, hempty, hkeep, hsync, h1, h2, h3]

/-- Settles O37: ENC leaves the closed form's word. -/
theorem stagesAreIndependent : Obligations.StagesAreIndependent := by
  intro tp d d' ob ob' j j' i hempty hj hj' hlast hi h1 h2 h3
  rw [enc_read_word tp d ob hj hi, enc_read_word tp d' ob' hj' hi, closedWord_congr hempty hlast h1 h2 h3]

end Sys2Proof.Machine
end
